-- ==== Sys2Proof/Word.lean ====
section
/-! DEFINITION. The words of the CHIP-8 core: bytes, 16-bit words, register and key numbers (00_scope R6, R8). -/

namespace Sys2Proof

/-- An 8-bit value: a general register, a timer, a byte of RAM (R6 `XLEN`, `TIMER_WIDTH`). -/
abbrev Byte := BitVec 8

/-- A 16-bit value: an instruction word, `pc`, `I`, a call-stack slot (R6 `ILEN`, `PC_WIDTH`, `I_WIDTH`). -/
abbrev Word := BitVec 16

/-- The number of a general register, V0 to VF: always below 16 by construction (R11). -/
abbrev RegIdx := Fin 16

/-- The number of a key, 0 to 15 (R20). -/
abbrev KeyIdx := Fin 16

/-- VF, the register that doubles as the flag (R12). -/
abbrev flagReg : RegIdx := 15

end Sys2Proof
end

