-- ==== Sys2Proof/Config.lean ====
section
/-! DEFINITION. What the hardware fixes (00_scope R6), the parameters the spec decides (R7), the host's events and
the free values. -/

namespace Sys2Proof

/-- Which register the shift instructions read (R7 `SHIFT_SRC`). -/
inductive ShiftSource where
  | x
  | y
  deriving DecidableEq, Repr

namespace Machine

/-- What the host can do to the core between two Steps (60_exceptions R124); Step itself is `step`. -/
inductive HostEvent where
  /-- The timer tick (R126). -/
  | tick
  /-- `KEY[k] <- b` (R127). -/
  | keyWrite (k : KeyIdx) (b : Bool)
  /-- The read of the framebuffer and the redraw flag (R128). -/
  | readFrame
  /-- `redraw <- 0` (R129). -/
  | redrawClear
  /-- The read of both timers (R130). -/
  | readTimers
  /-- The load of a program image at 0x200 (R141). -/
  | load (image : List Byte)
  /-- Reset (R140). -/
  | reset
  deriving DecidableEq, Repr

end Machine

namespace Config

/-! Constants of the hardware (R6). -/

/-- `MEM_SIZE`: RAM is 4096 bytes, 0x000 to 0xFFF. -/
abbrev memSize : Nat := 4096

/-- `PROG_BASE`: where Load puts the image, and where `pc` starts. -/
abbrev progBase : Word := 0x200

/-- `MAX_IMAGE`: the longest image Load accepts, 4096 - 0x200 bytes. -/
abbrev maxImage : Nat := 3584

/-- `GLYPH_BYTES`: bytes of one font glyph. -/
abbrev glyphBytes : Nat := 5

/-! Parameters the source leaves open, each at the value the spec decides (R7).
`ADDR_POLICY` (wrap) and `STRICT_DECODE` (false) are not here: their other value is a stop, and the
model has the spec's value built in (log 4, log 8). -/

/-- `SHIFT_SRC` = X (the spec's decision D9; log 10, unsafe where x and y differ). -/
def shiftSrc : ShiftSource := .x

/-- `MAX_CALL_DEPTH` = 15 (the spec's decision D15; log 15, safe). -/
def maxCallDepth : Nat := 15

/-- `FLAG_LAST` = true: SUB, SUBN, SHR, SHL write the flag after the result (D10; log 11, unsafe for x = 15). -/
def flagLast : Bool := true

/-- `OPERANDS_FIRST` = true: DRW reads its coordinates before it clears VF (D11; log 12, unsafe for VF coordinates). -/
def operandsFirst : Bool := true

/-- `SPRITE_MSB_LEFT` = true: bit 7 of a sprite byte is its leftmost pixel (D12; log 13, unsafe). -/
def spriteMsbLeft : Bool := true

/-- `RESET_REDRAW` = 0 (D18; log 17, unsafe for a claim about the flag right after Reset). -/
def resetRedraw : Bool := false

/-- `RESET_KEYS`: no key pressed (D18; log 17). -/
def resetKeys : Vector Bool 16 := Vector.replicate 16 false

/-- `FONT`: the 80 bytes of RAM 0x000 to 0x04F after Reset, glyph d at 5 * d (R14; D13; log 14, unsafe). -/
def font : List Byte :=
  [0xF0, 0x90, 0x90, 0x90, 0xF0,  0x20, 0x60, 0x20, 0x20, 0x70,
   0xF0, 0x10, 0xF0, 0x80, 0xF0,  0xF0, 0x10, 0xF0, 0x10, 0xF0] ++
  [0x90, 0x90, 0xF0, 0x10, 0x10,  0xF0, 0x80, 0xF0, 0x10, 0xF0,
   0xF0, 0x80, 0xF0, 0x90, 0xF0,  0xF0, 0x10, 0x20, 0x40, 0x40] ++
  [0xF0, 0x90, 0xF0, 0x90, 0xF0,  0xF0, 0x90, 0xF0, 0x10, 0xF0,
   0xF0, 0x90, 0xF0, 0x90, 0x90,  0xE0, 0x90, 0xE0, 0x90, 0xE0] ++
  [0xF0, 0x80, 0x80, 0x80, 0xF0,  0xE0, 0x90, 0x90, 0x90, 0xE0,
   0xF0, 0x80, 0xF0, 0x80, 0xF0,  0xF0, 0x80, 0xF0, 0x80, 0x80]

/-! Free values: no body, so nothing can be proved of the value they give. -/

/-- `RND_BYTE`: the byte the k-th draw gives (R88, D14; log 1, safe). -/
opaque rndByte : Nat → Byte

/-- `KEY_PICK`: which of the pressed keys the k-th draw picks, as a number taken modulo how many
are pressed (R100, D16; log 2, safe). -/
opaque keyPick : Nat → Nat

/-- What a host that is free does in the turn that takes the k-th free value: any finite sequence of events
(60_exceptions R125, D2; log 3, safe). -/
opaque hostTurn : Nat → List Machine.HostEvent

end Config
end Sys2Proof
end

