-- ==== Sys2Proof/Syntax.lean ====
section
/-! DEFINITION. The instructions: one constructor per row of spec/opcode_table.json (30_encoding R50, R54). -/

namespace Sys2Proof

/-- The 34 instructions of R50 in the table's order, then the no-op of R69. Register fields are `RegIdx`,
`kk` is a byte, `nnn` has 12 bits, `n` has 4 bits (R46, R48). -/
inductive Instr where
  /-- `CLS` (R96). -/
  | cls
  /-- `RET` (R62). -/
  | ret
  /-- `JP nnn` (R63). -/
  | jp (nnn : BitVec 12)
  /-- `CALL nnn` (R64). -/
  | call (nnn : BitVec 12)
  /-- `SE Vx, kk` (R65). -/
  | seImm (x : RegIdx) (kk : Byte)
  /-- `SNE Vx, kk` (R66). -/
  | sneImm (x : RegIdx) (kk : Byte)
  /-- `SE Vx, Vy` (R67). -/
  | seReg (x y : RegIdx)
  /-- `LD Vx, kk` (R77). -/
  | ldImm (x : RegIdx) (kk : Byte)
  /-- `ADD Vx, kk` (R78). -/
  | addImm (x : RegIdx) (kk : Byte)
  /-- `LD Vx, Vy` (R79). -/
  | ldReg (x y : RegIdx)
  /-- `OR Vx, Vy` (R80). -/
  | orReg (x y : RegIdx)
  /-- `AND Vx, Vy` (R81). -/
  | andReg (x y : RegIdx)
  /-- `XOR Vx, Vy` (R82). -/
  | xorReg (x y : RegIdx)
  /-- `ADD Vx, Vy` (R83). -/
  | addReg (x y : RegIdx)
  /-- `SUB Vx, Vy` (R84). -/
  | subReg (x y : RegIdx)
  /-- `SHR Vx, Vy` (R85). -/
  | shr (x y : RegIdx)
  /-- `SUBN Vx, Vy` (R86). -/
  | subnReg (x y : RegIdx)
  /-- `SHL Vx, Vy` (R87). -/
  | shl (x y : RegIdx)
  /-- `SNE Vx, Vy` (R68). -/
  | sneReg (x y : RegIdx)
  /-- `LD I, nnn` (R109). -/
  | ldI (nnn : BitVec 12)
  /-- `JP V0, nnn` (R70). -/
  | jpV0 (nnn : BitVec 12)
  /-- `RND Vx, kk` (R88). -/
  | rnd (x : RegIdx) (kk : Byte)
  /-- `DRW Vx, Vy, n` (R97). -/
  | drw (x y : RegIdx) (n : BitVec 4)
  /-- `SKP Vx` (R98). -/
  | skp (x : RegIdx)
  /-- `SKNP Vx` (R99). -/
  | sknp (x : RegIdx)
  /-- `LD Vx, DT` (R106). -/
  | ldFromDT (x : RegIdx)
  /-- `LD Vx, K` (R100). -/
  | ldKey (x : RegIdx)
  /-- `LD DT, Vx` (R107). -/
  | ldDT (x : RegIdx)
  /-- `LD ST, Vx` (R108). -/
  | ldST (x : RegIdx)
  /-- `ADD I, Vx` (R110). -/
  | addI (x : RegIdx)
  /-- `LD F, Vx` (R111). -/
  | ldF (x : RegIdx)
  /-- `LD B, Vx` (R112). -/
  | ldB (x : RegIdx)
  /-- `LD [I], Vx` (R113). -/
  | storeRegs (x : RegIdx)
  /-- `LD Vx, [I]` (R114). -/
  | loadRegs (x : RegIdx)
  /-- The no-op a word runs as when no row selects it (`DW word`, R69); it carries the word. -/
  | nop (w : Word)
  deriving DecidableEq, Repr

/-- The number of the row of R50 (1 to 34) an instruction belongs to; 35 for the no-op's row. -/
def Instr.row : Instr → Nat
  | .cls => 1
  | .ret => 2
  | .jp _ => 3
  | .call _ => 4
  | .seImm _ _ => 5
  | .sneImm _ _ => 6
  | .seReg _ _ => 7
  | .ldImm _ _ => 8
  | .addImm _ _ => 9
  | .ldReg _ _ => 10
  | .orReg _ _ => 11
  | .andReg _ _ => 12
  | .xorReg _ _ => 13
  | .addReg _ _ => 14
  | .subReg _ _ => 15
  | .shr _ _ => 16
  | .subnReg _ _ => 17
  | .shl _ _ => 18
  | .sneReg _ _ => 19
  | .ldI _ => 20
  | .jpV0 _ => 21
  | .rnd _ _ => 22
  | .drw _ _ _ => 23
  | .skp _ => 24
  | .sknp _ => 25
  | .ldFromDT _ => 26
  | .ldKey _ => 27
  | .ldDT _ => 28
  | .ldST _ => 29
  | .addI _ => 30
  | .ldF _ => 31
  | .ldB _ => 32
  | .storeRegs _ => 33
  | .loadRegs _ => 34
  | .nop _ => 35

end Sys2Proof
end

