-- ==== Sys2Proof/WellFormed.lean ====
section
/-! DEFINITION. The opcode map of 30_encoding R50 as data, and which instructions are well formed. -/

namespace Sys2Proof

/-- One row of the opcode map: a word `w` selects it when `w &&& mask = value` (R50). -/
structure OpcodeRow where
  row   : Nat
  mask  : Word
  value : Word
  deriving DecidableEq, Repr

/-- Does the word select the row? -/
def OpcodeRow.selects (r : OpcodeRow) (w : Word) : Bool := w &&& r.mask == r.value

/-- The opcode map of R50, its 34 rows in order (the numbers are the spec's decision D6; log 7). -/
def opcodeMap : List OpcodeRow :=
  [⟨1, 0xF00F, 0x0000⟩, ⟨2, 0xF00F, 0x000E⟩, ⟨3, 0xF000, 0x1000⟩, ⟨4, 0xF000, 0x2000⟩,
   ⟨5, 0xF000, 0x3000⟩, ⟨6, 0xF000, 0x4000⟩, ⟨7, 0xF000, 0x5000⟩, ⟨8, 0xF000, 0x6000⟩,
   ⟨9, 0xF000, 0x7000⟩] ++
  [⟨10, 0xF00F, 0x8000⟩, ⟨11, 0xF00F, 0x8001⟩, ⟨12, 0xF00F, 0x8002⟩, ⟨13, 0xF00F, 0x8003⟩,
   ⟨14, 0xF00F, 0x8004⟩, ⟨15, 0xF00F, 0x8005⟩, ⟨16, 0xF00F, 0x8006⟩, ⟨17, 0xF00F, 0x8007⟩,
   ⟨18, 0xF00F, 0x800E⟩] ++
  [⟨19, 0xF000, 0x9000⟩, ⟨20, 0xF000, 0xA000⟩, ⟨21, 0xF000, 0xB000⟩, ⟨22, 0xF000, 0xC000⟩,
   ⟨23, 0xF000, 0xD000⟩, ⟨24, 0xF00F, 0xE00E⟩, ⟨25, 0xF00F, 0xE001⟩] ++
  [⟨26, 0xF0FF, 0xF007⟩, ⟨27, 0xF0FF, 0xF00A⟩, ⟨28, 0xF0FF, 0xF015⟩, ⟨29, 0xF0FF, 0xF018⟩,
   ⟨30, 0xF0FF, 0xF01E⟩, ⟨31, 0xF0FF, 0xF029⟩, ⟨32, 0xF0FF, 0xF033⟩, ⟨33, 0xF0FF, 0xF055⟩,
   ⟨34, 0xF0FF, 0xF065⟩]

/-- A word is unrecognised when no row of the opcode map selects it (R50, R52). -/
def unrecognised (w : Word) : Bool := opcodeMap.all fun r => !r.selects w

/-- Every operand is well formed by its type; the no-op must carry a word that is unrecognised (R52, R69). -/
def Instr.wellFormed : Instr → Bool
  | .nop w => unrecognised w
  | .cls | .ret | .jp _ | .call _ | .seImm _ _ | .sneImm _ _ | .seReg _ _ | .ldImm _ _ | .addImm _ _
  | .ldReg _ _ | .orReg _ _ | .andReg _ _ | .xorReg _ _ | .addReg _ _ | .subReg _ _ | .shr _ _
  | .subnReg _ _ | .shl _ _ | .sneReg _ _ | .ldI _ | .jpV0 _ | .rnd _ _ | .drw _ _ _ | .skp _ | .sknp _
  | .ldFromDT _ | .ldKey _ | .ldDT _ | .ldST _ | .addI _ | .ldF _ | .ldB _ | .storeRegs _ | .loadRegs _ => true

end Sys2Proof
end

