-- ==== Sys2Proof/Decode.lean ====
section
/-! DEFINITION. The decoder, two levels as in 30_encoding R49, and the encoder, from the canonical words of R50. -/

namespace Sys2Proof

/-! Fields of an instruction word (R46). -/

/-- `op = w[15:12]`, the family. -/
def fieldOp (w : Word) : BitVec 4 := w.extractLsb' 12 4

/-- `x = w[11:8]`. -/
def fieldX (w : Word) : RegIdx := (w.extractLsb' 8 4).toFin

/-- `y = w[7:4]`. -/
def fieldY (w : Word) : RegIdx := (w.extractLsb' 4 4).toFin

/-- `n = w[3:0]`. -/
def fieldN (w : Word) : BitVec 4 := w.extractLsb' 0 4

/-- `kk = w[7:0]`. -/
def fieldKK (w : Word) : Byte := w.extractLsb' 0 8

/-- `nnn = w[11:0]`. -/
def fieldNNN (w : Word) : BitVec 12 := w.extractLsb' 0 12

/-- Family 0x0: the low nibble selects; bits 11 to 4 are ignored (R49, R51). -/
def decode0 (w : Word) : Instr :=
  match fieldN w with
  | 0x0#4 => .cls
  | 0xE#4 => .ret
  | _ => .nop w

/-- Family 0x8: the low nibble selects (R49). -/
def decode8 (w : Word) : Instr :=
  match fieldN w with
  | 0x0#4 => .ldReg (fieldX w) (fieldY w)
  | 0x1#4 => .orReg (fieldX w) (fieldY w)
  | 0x2#4 => .andReg (fieldX w) (fieldY w)
  | 0x3#4 => .xorReg (fieldX w) (fieldY w)
  | 0x4#4 => .addReg (fieldX w) (fieldY w)
  | 0x5#4 => .subReg (fieldX w) (fieldY w)
  | 0x6#4 => .shr (fieldX w) (fieldY w)
  | 0x7#4 => .subnReg (fieldX w) (fieldY w)
  | 0xE#4 => .shl (fieldX w) (fieldY w)
  | _ => .nop w

/-- Family 0xE: the low nibble selects; bits 7 to 4 are ignored (R49, R51). -/
def decodeE (w : Word) : Instr :=
  match fieldN w with
  | 0xE#4 => .skp (fieldX w)
  | 0x1#4 => .sknp (fieldX w)
  | _ => .nop w

/-- Family 0xF: the low byte selects (R49). -/
def decodeF (w : Word) : Instr :=
  match fieldKK w with
  | 0x07#8 => .ldFromDT (fieldX w)
  | 0x0A#8 => .ldKey (fieldX w)
  | 0x15#8 => .ldDT (fieldX w)
  | 0x18#8 => .ldST (fieldX w)
  | 0x1E#8 => .addI (fieldX w)
  | 0x29#8 => .ldF (fieldX w)
  | 0x33#8 => .ldB (fieldX w)
  | 0x55#8 => .storeRegs (fieldX w)
  | 0x65#8 => .loadRegs (fieldX w)
  | _ => .nop w

/-- The decoder: level 1 on the top nibble, level 2 in the four families 0x0, 0x8, 0xE, 0xF (R49; C1).
Every word has an instruction: one that no row selects is the no-op (R52). Ignored bits are not looked at
(R51, the spec's decision D7; log 8, unsafe for non-canonical words). -/
def decodeWord (w : Word) : Instr :=
  match fieldOp w with
  | 0x0#4 => decode0 w
  | 0x1#4 => .jp (fieldNNN w)
  | 0x2#4 => .call (fieldNNN w)
  | 0x3#4 => .seImm (fieldX w) (fieldKK w)
  | 0x4#4 => .sneImm (fieldX w) (fieldKK w)
  | 0x5#4 => .seReg (fieldX w) (fieldY w)
  | 0x6#4 => .ldImm (fieldX w) (fieldKK w)
  | 0x7#4 => .addImm (fieldX w) (fieldKK w)
  | 0x8#4 => decode8 w
  | 0x9#4 => .sneReg (fieldX w) (fieldY w)
  | 0xA#4 => .ldI (fieldNNN w)
  | 0xB#4 => .jpV0 (fieldNNN w)
  | 0xC#4 => .rnd (fieldX w) (fieldKK w)
  | 0xD#4 => .drw (fieldX w) (fieldY w) (fieldN w)
  | 0xE#4 => decodeE w
  | _ => decodeF w

/-- Why bytes give no instruction: there are fewer than two of them (every instruction is 16 bits, R45). -/
inductive DecodeError where
  | truncated
  deriving DecidableEq, Repr

/-- The instruction word of two bytes, the first the high one (R34, R45). -/
def wordOfBytes (hi lo : Byte) : Word := hi ++ lo

/-- Decodes the first instruction of a list of bytes and gives the bytes after it. Every instruction has one
length, two bytes, so the only rejection is a list that ends too soon (R45). -/
def decode : List Byte → Except DecodeError (Instr × List Byte)
  | hi :: lo :: rest => .ok (decodeWord (wordOfBytes hi lo), rest)
  | [] | [_] => .error .truncated

/-- A word made of its four hexadecimal digits (R46). -/
def wordOfNibbles (d3 d2 d1 d0 : BitVec 4) : Word := d3 ++ d2 ++ d1 ++ d0

/-- The word of format `NNN`: op, nnn (R47). -/
def wordNNN (op : BitVec 4) (nnn : BitVec 12) : Word := op ++ nnn

/-- A register number as its 4-bit field (R46). -/
def regBits (x : RegIdx) : BitVec 4 := BitVec.ofFin x

/-- The word of format `XKK`, or `X` with its low byte: op, x, kk (R47). -/
def wordXKK (op : BitVec 4) (x : RegIdx) (kk : Byte) : Word := op ++ regBits x ++ kk

/-- The word of format `XY` or `XYN`: op, x, y, n (R47). -/
def wordXYN (op : BitVec 4) (x y : RegIdx) (n : BitVec 4) : Word :=
  wordOfNibbles op (regBits x) (regBits y) n

/-- The canonical word of an instruction (R50, column "canonical word"); for the no-op the word it carries. -/
def encode : Instr → Word
  | .cls => 0x00E0
  | .ret => 0x00EE
  | .jp nnn => wordNNN 0x1 nnn
  | .call nnn => wordNNN 0x2 nnn
  | .seImm x kk => wordXKK 0x3 x kk
  | .sneImm x kk => wordXKK 0x4 x kk
  | .seReg x y => wordXYN 0x5 x y 0x0
  | .ldImm x kk => wordXKK 0x6 x kk
  | .addImm x kk => wordXKK 0x7 x kk
  | .ldReg x y => wordXYN 0x8 x y 0x0
  | .orReg x y => wordXYN 0x8 x y 0x1
  | .andReg x y => wordXYN 0x8 x y 0x2
  | .xorReg x y => wordXYN 0x8 x y 0x3
  | .addReg x y => wordXYN 0x8 x y 0x4
  | .subReg x y => wordXYN 0x8 x y 0x5
  | .shr x y => wordXYN 0x8 x y 0x6
  | .subnReg x y => wordXYN 0x8 x y 0x7
  | .shl x y => wordXYN 0x8 x y 0xE
  | .sneReg x y => wordXYN 0x9 x y 0x0
  | .ldI nnn => wordNNN 0xA nnn
  | .jpV0 nnn => wordNNN 0xB nnn
  | .rnd x kk => wordXKK 0xC x kk
  | .drw x y n => wordXYN 0xD x y n
  | .skp x => wordXKK 0xE x 0x9E
  | .sknp x => wordXKK 0xE x 0xA1
  | .ldFromDT x => wordXKK 0xF x 0x07
  | .ldKey x => wordXKK 0xF x 0x0A
  | .ldDT x => wordXKK 0xF x 0x15
  | .ldST x => wordXKK 0xF x 0x18
  | .addI x => wordXKK 0xF x 0x1E
  | .ldF x => wordXKK 0xF x 0x29
  | .ldB x => wordXKK 0xF x 0x33
  | .storeRegs x => wordXKK 0xF x 0x55
  | .loadRegs x => wordXKK 0xF x 0x65
  | .nop w => w

/-- The two bytes of a word as RAM holds them, the high byte at the lower address (R34). -/
def wordBytes (w : Word) : List Byte := [w.extractLsb' 8 8, w.extractLsb' 0 8]

/-- The bytes of an instruction's canonical word (R45). -/
def encodeBytes (i : Instr) : List Byte := wordBytes (encode i)

/-- The instruction word whose bits are `w`, of which the opcode table gives `nbits`; every bit above is 0. -/
def tableWord (nbits w : Nat) : Word := BitVec.ofNat 16 (w % 2 ^ nbits)

/-- What the decoder reads from an opcode-table word: its two bytes laid out as RAM holds them and decoded. -/
def decodeTableWord (nbits w : Nat) : Option Instr :=
  match decode (wordBytes (tableWord nbits w)) with
  | .ok (i, _) => some i
  | .error _ => none

end Sys2Proof
end

