-- ==== Sys2Proof/Machine/Operands.lean ====
section
/-! DEFINITION. Operand forms and the values instructions compute from operands. -/

namespace Sys2Proof.Machine

/-- A 12-bit immediate as a 16-bit address: `zext_16(nnn)` (30_encoding R48). -/
def zextAddr (nnn : BitVec 12) : Word := nnn.zeroExtend 16

/-- A register's value as a 16-bit number: `zext_16(a)` (R70, R110). -/
def zextByte (a : Byte) : Word := a.zeroExtend 16

/-- The low nibble of a register's value, as a key number or a digit: `V[x] & 0x0F` (R98, R99, R111). -/
def lowNibble (a : Byte) : Fin 16 := (a.extractLsb' 0 4).toFin

/-- The key number LD Vx, K stores: 0 to 15, upper nibble 0 (R100). -/
def keyByte (k : KeyIdx) : Byte := BitVec.ofNat 8 k.val

/-- The register the shifts read: x when `SHIFT_SRC` = X, y when it is Y (R85, R87; D9, log 10). -/
def shiftOperand (x y : RegIdx) : RegIdx :=
  match Config.shiftSrc with
  | .x => x
  | .y => y

/-- The address of the glyph of a hexadecimal digit, `5 * d` (R111). -/
def glyphAddr (d : Fin 16) : Word := BitVec.ofNat 16 (Config.glyphBytes * d.val)

/-- The three decimal digits of a byte, hundreds first, each in a byte of its own (R112). -/
def bcdDigits (a : Byte) : List Byte :=
  [BitVec.ofNat 8 (a.toNat / 100), BitVec.ofNat 8 (a.toNat / 10 % 10), BitVec.ofNat 8 (a.toNat % 10)]

/-- The bit of a sprite byte at column offset `c`: bit 7 - c, since bit 7 is the leftmost pixel (R95, R97;
`SPRITE_MSB_LEFT`, D12, log 13). -/
def spriteBit (b : Byte) (c : Nat) : Bool :=
  if Config.spriteMsbLeft then b.getLsbD (7 - c) else b.getLsbD c

end Sys2Proof.Machine
end

