-- ==== Sys2Proof/Machine/State.lean ====
section
/-! DEFINITION. The state of the core (10_state), what the host does next as data, and why a step can stop. -/

namespace Sys2Proof.Machine

/-- The framebuffer `FB[x][y]`: 64 columns of 32 one-bit cells (R18; cell width and index order D23, log 19). -/
abbrev Framebuffer := Vector (Vector Bool 32) 64

/-- RAM as the list of the bytes that differ from what Reset leaves, by rising address (log 23). -/
abbrev Memory := List Host.Cell

/-- What a host event answers the host (R124, column "result"). -/
inductive HostReply where
  /-- No result: Tick, KeyWrite, RedrawClear, Reset. -/
  | none
  /-- All pixels and the redraw flag (ReadFrame). -/
  | frame (fb : Framebuffer) (redraw : Bool)
  /-- `DT` and `ST` (ReadTimers). -/
  | timers (dt st : Byte)
  /-- Load succeeded. -/
  | loaded
  /-- Load failed: the image is longer than 3584 bytes, and nothing was written (R121). -/
  | imageTooLarge
  deriving DecidableEq, Repr

/-- What the host does before every Step for which the schedule holds no turn, for ever (R125; log 3). -/
inductive HostTail where
  /-- The same events before every such Step; with no events the host is silent. -/
  | repeats (turn : List HostEvent)
  /-- A free value before every such Step: nothing is known of what the host does. -/
  | free
  deriving DecidableEq, Repr

/-- The state: every item of R10, then three fields of the model's own. -/
structure State where
  /-- V0 to VF (R11, R12). -/
  v : Vector Byte 16
  /-- The index register `I` (R13). -/
  i : Word
  /-- The program counter (R15). -/
  pc : Word
  /-- `STACK[0]` to `STACK[15]` (R16). -/
  stack : Vector Word 16
  /-- The index of the next free stack slot (R16). -/
  sp : BitVec 4
  /-- The delay timer (R17). -/
  dt : Byte
  /-- The sound timer (R17). -/
  st : Byte
  /-- The framebuffer (R18). -/
  fb : Framebuffer
  /-- The redraw flag (R19). -/
  redraw : Bool
  /-- The key matrix, true = pressed (R20). -/
  keys : Vector Bool 16
  /-- RAM (R14, R30). -/
  mem : Memory
  /-- The model's own: how many free values this run has drawn (R24; log 1, log 2, log 3). -/
  freeDraws : Nat
  /-- The model's own: what the host does before each of the coming Steps, one list of events a Step (R125; log 3). -/
  schedule : List (List HostEvent)
  /-- The model's own: what the host does once the schedule is used up (R125; log 3). -/
  hostTail : HostTail
  deriving DecidableEq, Repr

/-- The two situations that have no successor state (R122). The hardware has no such signal: a fault is a
verdict of the model (R134, D22). -/
inductive Fault where
  /-- RET with `SP` = 0 (R62; 93 U1). Raised by RET alone. Safe: the model stops where anything may follow. -/
  | stackUnderflow
  /-- CALL with `SP` = 15 (R64; 93 U2). Raised by CALL alone. Safe: the model stops where anything may follow (log 15). -/
  | stackOverflow
  deriving DecidableEq, Repr

/-- Why the model gives an instruction no meaning. No instruction of this model is refused. -/
inductive Refusal where
  /-- Raised by an arm of `exec` that has no meaning yet; no arm is left so. Safe. -/
  | notModelled (mnemonic : String)
  deriving DecidableEq, Repr

/-- The machine right after Reset (R140). RAM lists nothing: it holds what Reset leaves, the font and zeros.
`redraw` and `keys` are the spec's decision D18 (log 17); `freeDraws`, `schedule` and `hostTail` are
the model's (log 1, log 3). -/
def State.reset : State where
  v := Vector.replicate 16 0
  i := 0
  pc := Config.progBase
  stack := Vector.replicate 16 0
  sp := 0
  dt := 0
  st := 0
  fb := Vector.replicate 64 (Vector.replicate 32 false)
  redraw := Config.resetRedraw
  keys := Config.resetKeys
  mem := []
  freeDraws := 0
  schedule := []
  hostTail := .repeats []

end Sys2Proof.Machine
end

