-- ==== Sys2Proof/Machine/Ops.lean ====
section
/-! DEFINITION. The named operations on memory and state that every meaning is written with.
There is no operation for taking an exception or returning from one: the hardware has neither (60_exceptions
R120, R134, R135; log 28). -/

namespace Sys2Proof.Machine

/-! RAM. -/

/-- What RAM holds where nothing is listed: the contents Reset leaves, the font at 0x000 to 0x04F and 0
elsewhere (10_state R14, 70_reset R140; log 14, log 23). -/
def Memory.background (a : Nat) : Byte := Config.font.getD a 0

/-- The canonical form: addresses strictly rising, all within RAM, no entry equal to the background. -/
abbrev Memory.wf (m : Memory) : Prop :=
  m.Pairwise (fun c d => c.1 < d.1) ∧ ∀ c ∈ m, c.1 < Config.memSize ∧ c.2 ≠ Memory.background c.1

/-- The byte at a RAM index. -/
def Memory.read : Memory → Nat → Byte
  | [], a => Memory.background a
  | (k, b) :: m, a => if a = k then b else Memory.read m a

/-- Puts an entry in its place by address. -/
def Memory.insertCell (a : Nat) (b : Byte) : Memory → Memory
  | [] => [(a, b)]
  | (k, c) :: m => if a < k then (a, b) :: (k, c) :: m else (k, c) :: Memory.insertCell a b m

/-- Stores a byte at a RAM index and keeps the canonical form: writing the background removes the entry. -/
def Memory.write (m : Memory) (a : Nat) (b : Byte) : Memory :=
  if b = Memory.background a then m.filter (fun c => c.1 != a)
  else Memory.insertCell a b (m.filter (fun c => c.1 != a))

/-- The RAM byte an address reaches: the address modulo 4096 (20_memory R33; `ADDR_POLICY` = wrap, D3; log 4). -/
def ramIndex (a : Word) : Nat := a.toNat % Config.memSize

/-- `MemRead(a, 1)` (R33, R35). -/
def State.memRead (s : State) (a : Word) : Byte := s.mem.read (ramIndex a)

/-- `MemWrite(a, 1, b)` (R33, R35); no address is protected (R37). -/
def State.memWrite (s : State) (a : Word) (b : Byte) : State := { s with mem := s.mem.write (ramIndex a) b }

/-- Reads `n` bytes at consecutive addresses, lowest first, each address modulo 2^16 and reduced on its own (R35, R105). -/
def State.memReadBytes (s : State) (a : Word) : Nat → List Byte
  | 0 => []
  | n + 1 => s.memRead a :: s.memReadBytes (a + 1) n

/-- Writes bytes at consecutive addresses, lowest first, each address modulo 2^16 and reduced on its own (R35, R105). -/
def State.memWriteBytes (s : State) (a : Word) : List Byte → State
  | [] => s
  | b :: bs => (s.memWrite a b).memWriteBytes (a + 1) bs

/-! The general registers and `I`. -/

/-- `V[x]` (R11). -/
def State.readV (s : State) (x : RegIdx) : Byte := s.v[x.val]

/-- `V[x] <- b` (R11): no register is hardwired. -/
def State.writeV (s : State) (x : RegIdx) (b : Byte) : State := { s with v := s.v.set x.val b }

/-- `I <- a` (R13). -/
def State.setI (s : State) (a : Word) : State := { s with i := a }

/-- The values of V0 to Vx, V0 first (R113). -/
def State.readBlock (s : State) (x : RegIdx) : List Byte := s.v.toList.take (x.val + 1)

/-- V0 to Vx from the bytes at `a`, `a + 1`, ..., V0 first; the registers above x keep their values (R114). -/
def State.loadBlock (s : State) (x : RegIdx) (a : Word) : State :=
  { s with v := Vector.ofFn fun r : Fin 16 =>
      if r ≤ x then s.memRead (a + BitVec.ofNat 16 r.val) else s.readV r }

/-! The program counter. -/

/-- `pc <- a` (R15). -/
def State.setPc (s : State) (a : Word) : State := { s with pc := a }

/-- The advance of every Step, `pc <- pc + 2` modulo 2^16 (R60; D4, log 5). -/
def State.advance (s : State) : State := s.setPc (s.pc + 2)

/-- The skips: a further `pc <- pc + 2` when the condition holds (R65 to R68, R98, R99). -/
def State.skipIf (s : State) (c : Bool) : State := if c then s.setPc (s.pc + 2) else s

/-- The instruction word at `pc`: the bytes at `pc` and `pc + 1`, big-endian (R34, R60). -/
def State.fetchWord (s : State) : Word := wordOfBytes (s.memRead s.pc) (s.memRead (s.pc + 1))

/-- Stores a word's two bytes where the next fetch reads them. -/
def State.placeWord (s : State) (w : Word) : State := s.memWriteBytes s.pc (wordBytes w)

/-! The call stack. -/

/-- `STACK[i]` (R16). -/
def State.readStack (s : State) (i : BitVec 4) : Word := s.stack[i.toFin.val]

/-- `STACK[SP] <- a; SP <- SP + 1` (R64). -/
def State.push (s : State) (a : Word) : State :=
  { s with stack := s.stack.set s.sp.toFin.val a, sp := s.sp + 1 }

/-- `SP <- SP - 1; pc <- STACK[SP]` (R62): the slot keeps its contents. -/
def State.popPc (s : State) : State := { s with sp := s.sp - 1, pc := s.readStack (s.sp - 1) }

/-! The timers. -/

/-- `DT <- b` (R107). -/
def State.setDT (s : State) (b : Byte) : State := { s with dt := b }

/-- `ST <- b` (R108). -/
def State.setST (s : State) (b : Byte) : State := { s with st := b }

/-- One tick of a timer: down by one, and 0 stays 0 (R17, R126). -/
def countDown (t : Byte) : Byte := if t = 0 then 0 else t - 1

/-! The framebuffer. -/

/-- `FB[px][py]` (R18). -/
def Framebuffer.pixel (fb : Framebuffer) (px : Fin 64) (py : Fin 32) : Bool := fb[px.val][py.val]

/-- `FB[px][py] <- FB[px][py] xor 1` (R97). -/
def Framebuffer.flip (fb : Framebuffer) (px : Fin 64) (py : Fin 32) : Framebuffer :=
  fb.set px.val (fb[px.val].set py.val (!fb.pixel px py))

/-- Every cell 0 (R96). -/
def Framebuffer.blank : Framebuffer := Vector.replicate 64 (Vector.replicate 32 false)

/-- A column number modulo 64 (R95). -/
def wrapX (v : Nat) : Fin 64 := Fin.ofNat 64 v

/-- A row number modulo 32 (R95). -/
def wrapY (v : Nat) : Fin 32 := Fin.ofNat 32 v

/-- One set sprite bit: a pixel that was on is a collision, and the pixel is flipped (R97). The pair is the
framebuffer and whether a collision has happened so far. -/
def plot (px : Fin 64) (py : Fin 32) (d : Framebuffer × Bool) : Framebuffer × Bool :=
  (d.1.flip px py, d.2 || d.1.pixel px py)

/-- One sprite row at screen row `y`: its set bits, column offset 0 first, each column wrapped on its own (R97). -/
def drawRow (x0 : Nat) (y : Nat) (b : Byte) (d : Framebuffer × Bool) : Framebuffer × Bool :=
  (List.range 8).foldl (fun d c => if spriteBit b c then plot (wrapX (x0 + c)) (wrapY y) d else d) d

/-- The rows of a sprite from screen row `y` down, each row wrapped on its own (R97). -/
def drawRows (x0 : Nat) : Nat → List Byte → Framebuffer × Bool → Framebuffer × Bool
  | _, [], d => d
  | y, b :: bs, d => drawRows x0 (y + 1) bs (drawRow x0 y b d)

/-- Gives the core a new framebuffer and raises the redraw flag (R19, R96, R97). -/
def State.present (s : State) (fb : Framebuffer) : State := { s with fb := fb, redraw := true }

/-! The keys. -/

/-- `KEY[k]` (R20). -/
def State.keyDown (s : State) (k : KeyIdx) : Bool := s.keys[k.val]

/-- The keys pressed now, by rising number (R100, the set `P`). -/
def State.pressedKeys (s : State) : List KeyIdx := (List.finRange 16).filter s.keyDown

/-- The key picked from a non-empty list of pressed keys, any of them according to the free number `d` (R100). -/
def pickKey (k : KeyIdx) (ks : List KeyIdx) (d : Nat) : KeyIdx :=
  match ks with
  | [] => k
  | _ :: _ => (k :: ks).getD (d % (ks.length + 1)) k

/-! Free values. -/

/-- The byte `draw8()` gives now (R88; log 1). -/
def State.drawnByte (s : State) : Byte := Config.rndByte s.freeDraws

/-- The key `choose(P)` gives now, for `P` = k :: ks (R100; log 2). -/
def State.chosenKey (s : State) (k : KeyIdx) (ks : List KeyIdx) : KeyIdx :=
  pickKey k ks (Config.keyPick s.freeDraws)

/-- A free value has been drawn: the next draw is another one (log 1). -/
def State.countDraw (s : State) : State := { s with freeDraws := s.freeDraws + 1 }

end Sys2Proof.Machine
end

