-- ==== Sys2Proof/Machine/Flags.lean ====
section
/-! DEFINITION. The flags VF receives (10_state R12) and the order of result and flag (41_arithmetic_logic R76). -/

namespace Sys2Proof.Machine

/-- A flag as the byte VF holds: 0x00 or 0x01 (R12). -/
def flagByte (b : Bool) : Byte := if b then 1 else 0

/-- The carry out of an 8-bit addition: the 9-bit sum exceeds 255 (R75, R83). -/
def carryOut (a b : Byte) : Bool := decide (255 < a.toNat + b.toNat)

/-- The flag of `a - b`: no borrow occurred (R75, R84, R86). -/
def noBorrow (a b : Byte) : Bool := decide (b.toNat ≤ a.toNat)

/-- The bit a right shift by one drops: bit 0 (R85). -/
def droppedRight (a : Byte) : Bool := a.getLsbD 0

/-- The bit a left shift by one drops: bit 7 (R87). -/
def droppedLeft (a : Byte) : Bool := a.getLsbD 7

/-- Writes a result to `V[x]` and its flag to VF, the flag last, so that it remains when x = 15 (R76;
`FLAG_LAST`, D10, log 11). -/
def State.writeResultAndFlag (x : RegIdx) (result : Byte) (flag : Bool) (s : State) : State :=
  if Config.flagLast then (s.writeV x result).writeV flagReg (flagByte flag)
  else (s.writeV flagReg (flagByte flag)).writeV x result

end Sys2Proof.Machine
end

