-- ==== Sys2Proof/Machine/ArithLogic.lean ====
section
/-! DEFINITION. The arithmetic, logic, shift and random instructions (41_arithmetic_logic). Operands are read
before anything is written (R76, 00_scope R8). -/

namespace Sys2Proof.Machine

/-- LD Vx, kk (R77). -/
def execLdImm (x : RegIdx) (kk : Byte) (s : State) : Host.Outcome State Fault Refusal :=
  .next (s.writeV x kk)

/-- ADD Vx, kk (R78): modulo 256, no flag. -/
def execAddImm (x : RegIdx) (kk : Byte) (s : State) : Host.Outcome State Fault Refusal :=
  .next (s.writeV x (s.readV x + kk))

/-- LD Vx, Vy (R79). -/
def execLdReg (x y : RegIdx) (s : State) : Host.Outcome State Fault Refusal :=
  .next (s.writeV x (s.readV y))

/-- OR Vx, Vy (R80): no flag. -/
def execOr (x y : RegIdx) (s : State) : Host.Outcome State Fault Refusal :=
  .next (s.writeV x (s.readV x ||| s.readV y))

/-- AND Vx, Vy (R81): no flag. -/
def execAnd (x y : RegIdx) (s : State) : Host.Outcome State Fault Refusal :=
  .next (s.writeV x (s.readV x &&& s.readV y))

/-- XOR Vx, Vy (R82): no flag. -/
def execXor (x y : RegIdx) (s : State) : Host.Outcome State Fault Refusal :=
  .next (s.writeV x (s.readV x ^^^ s.readV y))

/-- ADD Vx, Vy (R83): VF is the carry out. -/
def execAddReg (x y : RegIdx) (s : State) : Host.Outcome State Fault Refusal :=
  .next (s.writeResultAndFlag x (s.readV x + s.readV y) (carryOut (s.readV x) (s.readV y)))

/-- SUB Vx, Vy (R84): Vx - Vy, VF is 1 when there is no borrow. -/
def execSub (x y : RegIdx) (s : State) : Host.Outcome State Fault Refusal :=
  .next (s.writeResultAndFlag x (s.readV x - s.readV y) (noBorrow (s.readV x) (s.readV y)))

/-- SHR Vx (R85): logical right shift by one of the shift operand, VF is the bit dropped. -/
def execShr (x y : RegIdx) (s : State) : Host.Outcome State Fault Refusal :=
  .next (s.writeResultAndFlag x (s.readV (shiftOperand x y) >>> 1) (droppedRight (s.readV (shiftOperand x y))))

/-- SUBN Vx, Vy (R86): Vy - Vx into Vx, VF is 1 when there is no borrow. -/
def execSubn (x y : RegIdx) (s : State) : Host.Outcome State Fault Refusal :=
  .next (s.writeResultAndFlag x (s.readV y - s.readV x) (noBorrow (s.readV y) (s.readV x)))

/-- SHL Vx (R87): left shift by one of the shift operand, VF is the bit dropped. -/
def execShl (x y : RegIdx) (s : State) : Host.Outcome State Fault Refusal :=
  .next (s.writeResultAndFlag x (s.readV (shiftOperand x y) <<< 1) (droppedLeft (s.readV (shiftOperand x y))))

/-- RND Vx, kk (R88): a free byte under the mask (log 1); no flag. -/
def execRnd (x : RegIdx) (kk : Byte) (s : State) : Host.Outcome State Fault Refusal :=
  .next (s.countDraw.writeV x (s.drawnByte &&& kk))

end Sys2Proof.Machine
end

