-- ==== Sys2Proof/Machine/ControlFlow.lean ====
section
/-! DEFINITION. The control-flow instructions (40_control_flow) and the no-op. In every meaning `s.pc` is the
address of the following instruction: Step has advanced it (R60). -/

namespace Sys2Proof.Machine

/-- RET (R62): with an empty stack there is no successor state (R122, U1). -/
def execRet (s : State) : Host.Outcome State Fault Refusal :=
  if s.sp = 0 then .fault .stackUnderflow else .next s.popPc

/-- JP nnn (R63). -/
def execJp (nnn : BitVec 12) (s : State) : Host.Outcome State Fault Refusal :=
  .next (s.setPc (zextAddr nnn))

/-- CALL nnn (R64): with 15 calls outstanding there is no successor state (R122, U2; log 15). -/
def execCall (nnn : BitVec 12) (s : State) : Host.Outcome State Fault Refusal :=
  if Config.maxCallDepth ≤ s.sp.toNat then .fault .stackOverflow
  else .next ((s.push s.pc).setPc (zextAddr nnn))

/-- SE Vx, kk (R65). -/
def execSeImm (x : RegIdx) (kk : Byte) (s : State) : Host.Outcome State Fault Refusal :=
  .next (s.skipIf (s.readV x == kk))

/-- SNE Vx, kk (R66). -/
def execSneImm (x : RegIdx) (kk : Byte) (s : State) : Host.Outcome State Fault Refusal :=
  .next (s.skipIf (s.readV x != kk))

/-- SE Vx, Vy (R67). -/
def execSeReg (x y : RegIdx) (s : State) : Host.Outcome State Fault Refusal :=
  .next (s.skipIf (s.readV x == s.readV y))

/-- SNE Vx, Vy (R68). -/
def execSneReg (x y : RegIdx) (s : State) : Host.Outcome State Fault Refusal :=
  .next (s.skipIf (s.readV x != s.readV y))

/-- JP V0, nnn (R70): always V0, and the 16-bit sum is kept whole (D24, log 20). -/
def execJpV0 (nnn : BitVec 12) (s : State) : Host.Outcome State Fault Refusal :=
  .next (s.setPc (zextAddr nnn + zextByte (s.readV 0)))

/-- The no-op of an unrecognised word (R69): nothing beyond the advance of the Step. -/
def execNop (_w : Word) (s : State) : Host.Outcome State Fault Refusal :=
  .next s

end Sys2Proof.Machine
end

