-- ==== Sys2Proof/Machine/DisplayInput.lean ====
section
/-! DEFINITION. The display and input instructions (42_display_input). -/

namespace Sys2Proof.Machine

/-- CLS (R96): every cell 0, and the redraw flag raised whatever was there (C4). -/
def execCls (s : State) : Host.Outcome State Fault Refusal :=
  .next (s.present Framebuffer.blank)

/-- The state DRW reads its coordinates from: before VF is cleared (`OPERANDS_FIRST`, R97 (g); D11, log 12). -/
def State.drawOperands (s : State) : State :=
  if Config.operandsFirst then s else s.writeV flagReg 0

/-- The framebuffer after a DRW and whether a lit pixel was hit: the start coordinates are reduced, then the
n sprite bytes at `I` are drawn row by row (R97). -/
def State.drawn (s : State) (x y : RegIdx) (n : BitVec 4) : Framebuffer × Bool :=
  drawRows ((s.drawOperands.readV x).toNat % 64) ((s.drawOperands.readV y).toNat % 32)
    (s.memReadBytes s.i n.toNat) (s.fb, false)

/-- DRW Vx, Vy, n (R97): VF is the collision flag, the redraw flag is always raised, `I` is not changed. -/
def execDrw (x y : RegIdx) (n : BitVec 4) (s : State) : Host.Outcome State Fault Refusal :=
  .next ((s.present (s.drawn x y n).1).writeV flagReg (flagByte (s.drawn x y n).2))

/-- SKP Vx (R98). -/
def execSkp (x : RegIdx) (s : State) : Host.Outcome State Fault Refusal :=
  .next (s.skipIf (s.keyDown (lowNibble (s.readV x))))

/-- SKNP Vx (R99). -/
def execSknp (x : RegIdx) (s : State) : Host.Outcome State Fault Refusal :=
  .next (s.skipIf (!s.keyDown (lowNibble (s.readV x))))

/-- LD Vx, K (R100): with no key pressed `pc` goes back to this instruction; otherwise the number of a
pressed key, freely picked among several (log 2), goes to Vx (log 21). -/
def execLdKey (x : RegIdx) (s : State) : Host.Outcome State Fault Refusal :=
  match s.pressedKeys with
  | [] => .next (s.setPc (s.pc - 2))
  | k :: ks => .next (s.countDraw.writeV x (keyByte (s.chosenKey k ks)))

end Sys2Proof.Machine
end

