-- ==== Sys2Proof/Machine/TimerMemory.lean ====
section
/-! DEFINITION. The timer, index-register and memory-block instructions (43_timer_memory). None writes VF as a flag. -/

namespace Sys2Proof.Machine

/-- LD Vx, DT (R106). -/
def execLdFromDT (x : RegIdx) (s : State) : Host.Outcome State Fault Refusal :=
  .next (s.writeV x s.dt)

/-- LD DT, Vx (R107). -/
def execLdDT (x : RegIdx) (s : State) : Host.Outcome State Fault Refusal :=
  .next (s.setDT (s.readV x))

/-- LD ST, Vx (R108). -/
def execLdST (x : RegIdx) (s : State) : Host.Outcome State Fault Refusal :=
  .next (s.setST (s.readV x))

/-- LD I, nnn (R109). -/
def execLdI (nnn : BitVec 12) (s : State) : Host.Outcome State Fault Refusal :=
  .next (s.setI (zextAddr nnn))

/-- ADD I, Vx (R110): modulo 2^16, no flag. -/
def execAddI (x : RegIdx) (s : State) : Host.Outcome State Fault Refusal :=
  .next (s.setI (s.i + zextByte (s.readV x)))

/-- LD F, Vx (R111; C2): the glyph address of the low nibble. -/
def execLdF (x : RegIdx) (s : State) : Host.Outcome State Fault Refusal :=
  .next (s.setI (glyphAddr (lowNibble (s.readV x))))

/-- LD B, Vx (R112): three digits at `I`, `I + 1`, `I + 2`; `I` is not changed. -/
def execLdB (x : RegIdx) (s : State) : Host.Outcome State Fault Refusal :=
  .next (s.memWriteBytes s.i (bcdDigits (s.readV x)))

/-- LD [I], Vx (R113): V0 to Vx at `I` upward; `I` ends one past the last address. -/
def execStoreRegs (x : RegIdx) (s : State) : Host.Outcome State Fault Refusal :=
  .next ((s.memWriteBytes s.i (s.readBlock x)).setI (s.i + BitVec.ofNat 16 (x.val + 1)))

/-- LD Vx, [I] (R114): V0 to Vx from `I` upward; `I` ends one past the last address. -/
def execLoadRegs (x : RegIdx) (s : State) : Host.Outcome State Fault Refusal :=
  .next ((s.loadBlock x s.i).setI (s.i + BitVec.ofNat 16 (x.val + 1)))

end Sys2Proof.Machine
end

