-- ==== Sys2Proof/Machine/HostEvents.lean ====
section
/-! DEFINITION. The host's events (60_exceptions R124), each one atomic change of the state, with its reply. -/

namespace Sys2Proof.Machine

/-- Tick: both timers count down, neither below 0 (R126; ST too, D17, log 16). -/
def State.tick (s : State) : State := { s with dt := countDown s.dt, st := countDown s.st }

/-- KeyWrite: `KEY[k] <- b` (R127). -/
def State.keyWrite (s : State) (k : KeyIdx) (b : Bool) : State := { s with keys := s.keys.set k.val b }

/-- RedrawClear: `redraw <- 0` (R129). -/
def State.clearRedraw (s : State) : State := { s with redraw := false }

/-- Load: an image of at most 3584 bytes is copied to 0x200 upward; a longer one changes nothing (R121, R141; D19, log 18). -/
def State.load (s : State) (image : List Byte) : State :=
  if Config.maxImage < image.length then s else s.memWriteBytes Config.progBase image

/-- Reset: every piece of the spec's state to its reset value (R140). The model's own fields go on: the free
values drawn after a Reset are new ones, and what the host does next is the host's (log 17). -/
def State.hostReset (s : State) : State :=
  { State.reset with freeDraws := s.freeDraws, schedule := s.schedule, hostTail := s.hostTail }

/-- What a host event does to the state (R124, column "effect"). -/
def State.hostEvent (s : State) : HostEvent → State
  | .tick => s.tick
  | .keyWrite k b => s.keyWrite k b
  | .readFrame => s
  | .redrawClear => s.clearRedraw
  | .readTimers => s
  | .load image => s.load image
  | .reset => s.hostReset

/-- What a host event answers the host (R124, column "result"). -/
def State.hostReply (s : State) : HostEvent → HostReply
  | .tick => .none
  | .keyWrite _ _ => .none
  | .readFrame => .frame s.fb s.redraw
  | .redrawClear => .none
  | .readTimers => .timers s.dt s.st
  | .load image => if Config.maxImage < image.length then .imageTooLarge else .loaded
  | .reset => .none

/-- Host events one after the other (R39, R125). -/
def State.hostEvents (s : State) : List HostEvent → State
  | [] => s
  | e :: es => (s.hostEvent e).hostEvents es

/-- The host's turn before a Step: the events the schedule holds for it; with the schedule used up, the events that
recur or a free turn, which takes one free value (R125; log 3). -/
def State.hostTurn (s : State) : State :=
  match s.schedule with
  | turn :: rest => { s with schedule := rest }.hostEvents turn
  | [] =>
    match s.hostTail with
    | .repeats turn => s.hostEvents turn
    | .free => s.countDraw.hostEvents (Config.hostTurn s.freeDraws)

/-- The schedule with nothing in the coming turn: the turn it held, or none where the host is silent anyway; a host
that acts after the schedule acts from the turn after the coming one. -/
def State.quietTurn (s : State) : List (List HostEvent) :=
  match s.schedule with
  | _ :: rest => [] :: rest
  | [] =>
    match s.hostTail with
    | .repeats [] => []
    | .repeats (_ :: _) | .free => [[]]

end Sys2Proof.Machine
end

