-- ==== Sys2Proof/Machine/Step.lean ====
section
/-! DEFINITION. The Step (40_control_flow R60) and the model's step: the host's turn, then one Step. -/

namespace Sys2Proof.Machine

/-- Step exactly as R60 has it: fetch the word at `pc`, advance `pc` by 2, execute the word's instruction. -/
def cycle (s : State) : Host.Outcome State Fault Refusal :=
  exec (decodeWord s.fetchWord) s.advance

/-- One step of the machine: the host events of this turn, one after the other, then one Step (R39, R125; log 3).
While the host is silent it is the Step alone. -/
def step (s : State) : Host.Outcome State Fault Refusal := cycle s.hostTurn

/-- `s` with a table word where `step` fetches its next instruction, and no host event before that fetch
(the host's turn could load over the word or reset `pc`); later turns are kept. -/
def State.withFetchWord (s : State) (nbits w : Nat) : State :=
  { s.placeWord (tableWord nbits w) with schedule := s.quietTurn }

end Sys2Proof.Machine
end

