-- ==== Sys2Proof/Safety.lean ====
section
/-! DEFINITION. What a safe run is, when an instruction has defined behaviour, and when a program has finished. -/

namespace Sys2Proof

open Sys2Proof.Machine

/-- The instruction has a successor state here: it is not RET with `SP` = 0 nor CALL with `SP` = 15
(60_exceptions R122, 70_reset R145). -/
def hasSuccessor (i : Instr) (s : State) : Bool :=
  match i with
  | .ret => s.sp != 0
  | .call _ => s.sp != 15
  | .cls | .jp _ | .seImm _ _ | .sneImm _ _ | .seReg _ _ | .ldImm _ _ | .addImm _ _ | .ldReg _ _ | .orReg _ _
  | .andReg _ _ | .xorReg _ _ | .addReg _ _ | .subReg _ _ | .shr _ _ | .subnReg _ _ | .shl _ _ | .sneReg _ _
  | .ldI _ | .jpV0 _ | .rnd _ _ | .drw _ _ _ | .skp _ | .sknp _ | .ldFromDT _ | .ldKey _ | .ldDT _ | .ldST _
  | .addI _ | .ldF _ | .ldB _ | .storeRegs _ | .loadRegs _ | .nop _ => true

/-- `n` steps from `s` meet no stop: the run stays within the defined behaviour (R145). -/
def SafeRun (n : Nat) (s : State) : Prop := ∃ t, core.run n s = .next t

/-- The program has finished: `pc` holds the address of a JP to that same address (70_reset R147, the spec's
convention D25; log 29). -/
def finished (s : State) : Bool :=
  match decodeWord s.fetchWord with
  | .jp nnn => zextAddr nnn == s.pc
  | _ => false

/-- The host never acts again: nothing is scheduled and nothing recurs. -/
def hostQuiet (s : State) : Bool := s.schedule.isEmpty && s.hostTail == .repeats []

/-- The invariant of the machine: RAM is in its canonical form (every other well-formedness is in the types). -/
def StateInv (s : State) : Prop := Memory.wf s.mem

end Sys2Proof
end

