-- ==== Sys2Proof/Certificates/Slice0/Obligations.lean ====
section
/-! DEFINITION. The statements for the provers. Statements about `exec` take the state Step has advanced: `s.pc` is
the address of the following instruction (40_control_flow R60). A frame is written `t = (s with the fields that may
change taken from t)`: every field not named there is unchanged. -/

open Sys2Proof Sys2Proof.Machine

namespace Sys2Proof.Claims

/-- Only the register file differs, and of it only `V[x]`. -/
def OnlyReg (x : RegIdx) (s t : State) : Prop :=
  t = { s with v := t.v } ∧ ∀ r, r ≠ x → t.readV r = s.readV r

/-- Only the register file differs, and of it only `V[x]` and VF. -/
def OnlyRegAndFlag (x : RegIdx) (s t : State) : Prop :=
  t = { s with v := t.v } ∧ ∀ r, r ≠ x → r ≠ flagReg → t.readV r = s.readV r

/-- The part of the word that decides which instruction it is (30_encoding R49): the family, the low nibble in
families 0x0, 0x8, 0xE, the low byte in family 0xF. -/
def decodeKey (w : Word) : BitVec 4 × BitVec 4 × BitVec 8 :=
  let op := w.extractLsb' 12 4
  if op = 0x0 ∨ op = 0x8 ∨ op = 0xE then (op, w.extractLsb' 0 4, 0)
  else if op = 0xF then (op, 0, w.extractLsb' 0 8)
  else (op, 0, 0)

/-- Does the sprite of DRW Vx, Vy, n set the bit that falls on this pixel? The column offset and the row of the
sprite that fall there are the pixel's distance from the start, modulo 64 and 32; bit 7 is column offset 0 (R97). -/
def spriteLights (s : State) (x y : RegIdx) (n : BitVec 4) (px : Fin 64) (py : Fin 32) : Bool :=
  let c := (px.val + 64 - (s.readV x).toNat % 64) % 64
  let r := (py.val + 32 - (s.readV y).toNat % 32) % 32
  decide (c < 8) && decide (r < n.toNat) && (s.memRead (s.i + BitVec.ofNat 16 r)).getLsbD (7 - c)

/-- The six instructions that write VF as a flag (10_state R12). -/
def writesFlag : Instr → Bool
  | .addReg _ _ | .subReg _ _ | .subnReg _ _ | .shr _ _ | .shl _ _ | .drw _ _ _ => true
  | _ => false

/-- The registers an instruction names as destinations: Vx, or V0 to Vx for the block load. -/
def isDestination : Instr → RegIdx → Bool
  | .ldImm x _, r | .addImm x _, r | .ldReg x _, r | .orReg x _, r | .andReg x _, r | .xorReg x _, r
  | .addReg x _, r | .subReg x _, r | .shr x _, r | .subnReg x _, r | .shl x _, r | .rnd x _, r
  | .ldFromDT x, r | .ldKey x, r => r == x
  | .loadRegs x, r => decide (r ≤ x)
  | _, _ => false

/-- Does an operand field of the instruction name VF (V0 to Vx for the block transfers)? -/
def namesVF : Instr → Bool
  | .seReg x y | .sneReg x y | .ldReg x y | .orReg x y | .andReg x y | .xorReg x y | .addReg x y | .subReg x y
  | .shr x y | .subnReg x y | .shl x y | .drw x y _ => x == flagReg || y == flagReg
  | .seImm x _ | .sneImm x _ | .ldImm x _ | .addImm x _ | .rnd x _ | .skp x | .sknp x | .ldFromDT x | .ldKey x
  | .ldDT x | .ldST x | .addI x | .ldF x | .ldB x | .storeRegs x | .loadRegs x => x == flagReg
  | .cls | .ret | .jp _ | .call _ | .ldI _ | .jpV0 _ | .nop _ => false

/-- The instructions that write `pc` beyond the advance (10_state R15). -/
def writesPc : Instr → Bool
  | .ret | .jp _ | .call _ | .jpV0 _ | .seImm _ _ | .sneImm _ _ | .seReg _ _ | .sneReg _ _ | .skp _ | .sknp _
  | .ldKey _ => true
  | _ => false

/-- The instructions that write `I` (10_state R13). -/
def writesI : Instr → Bool
  | .ldI _ | .addI _ | .ldF _ | .storeRegs _ | .loadRegs _ => true
  | _ => false

/-- The instructions that write RAM (20_memory R32). -/
def writesRam : Instr → Bool
  | .ldB _ | .storeRegs _ => true
  | _ => false

/-- The instructions that write the framebuffer and raise the redraw flag (10_state R18, R19). -/
def writesDisplay : Instr → Bool
  | .cls | .drw _ _ _ => true
  | _ => false

/-- The instructions that draw a free value. -/
def drawsFree : Instr → Bool
  | .rnd _ _ | .ldKey _ => true
  | _ => false

/-- The two states differ at most in the sound timer and the redraw flag. -/
def SameButOutputs (s t : State) : Prop := t = { s with st := t.st, redraw := t.redraw }

/-- The outcomes of two runs that differ at most in the sound timer and the redraw flag. -/
def SameOutcomeButOutputs : Host.Outcome State Fault Refusal → Host.Outcome State Fault Refusal → Prop
  | .next s, .next t => SameButOutputs s t
  | .fault f, .fault g => f = g
  | .refused f, .refused g => f = g
  | _, _ => False

/-- The host event is neither Load nor Reset. -/
def keepsProgram : HostEvent → Bool
  | .load _ | .reset => false
  | .tick | .keyWrite _ _ | .readFrame | .redrawClear | .readTimers => true

/-- The host never performs Load or Reset: not in the turns scheduled, nor in those that follow them. -/
def HostKeepsProgram (s : State) : Prop :=
  (∀ turn ∈ s.schedule, ∀ e ∈ turn, keepsProgram e = true) ∧
  match s.hostTail with
  | .repeats turn => ∀ e ∈ turn, keepsProgram e = true
  | .free => ∀ k, s.freeDraws ≤ k → ∀ e ∈ Config.hostTurn k, keepsProgram e = true

/-- Host turns and Steps by turns: the events of the first list, one Step, the events of the second, and so on, up
to the first stop (60_exceptions R125). -/
def interleaved : List (List HostEvent) → State → Host.Outcome State Fault Refusal
  | [], s => .next s
  | turn :: turns, s =>
    match cycle (s.hostEvents turn) with
    | .next t => interleaved turns t
    | .fault f => .fault f
    | .refused r => .refused r

end Sys2Proof.Claims

open Sys2Proof.Claims

/-- What the machine holds right after Reset. (Rests on 70_reset_and_hazards.md section 1, 10_state.md section 1,
92_eei_decisions.md D3, D13, D18.) The values of the redraw flag and of the keys are the spec's decision D18 (log
17); the font bytes are D13 (log 14). RAM is read through addresses modulo 4096, D3 (log 4). -/
def Obligations.ResetLeavesEveryFieldAtItsValue : Prop :=
  (∀ x, State.reset.readV x = 0) ∧ State.reset.i = 0 ∧ State.reset.pc = 0x200 ∧ State.reset.sp = 0 ∧
  (∀ k, State.reset.readStack k = 0) ∧ State.reset.dt = 0 ∧ State.reset.st = 0 ∧
  (∀ px py, State.reset.fb.pixel px py = false) ∧
  (∀ a : Word, State.reset.memRead a =
    if a.toNat % 4096 < 80 then Config.font.getD (a.toNat % 4096) 0 else 0) ∧
  State.reset.redraw = false ∧ (∀ k, State.reset.keyDown k = false)

/-- The invariant holds right after Reset. (Rests on 10_state.md section 4, 70_reset_and_hazards.md section 1.)
The canonical form is the model's own (log 23). -/
def Obligations.ResetMemoryIsCanonical : Prop :=
  StateInv State.reset

/-- None of the sixteen registers is hardwired: each is 0 at Reset, holds what is written to it and gives it when
read. (Rests on 10_state.md section 2, R11.) -/
def Obligations.EveryRegisterIsReadAndWrittenAlike : Prop :=
  (∀ x : RegIdx, State.reset.readV x = 0) ∧
  ∀ x y kk s, ∃ t u, exec (.ldImm x kk) s = .next t ∧ exec (.ldReg y x) t = .next u ∧
    u.readV x = kk ∧ u.readV y = kk ∧ ∀ r, r ≠ x → r ≠ y → u.readV r = s.readV r

/-- Decoding the encoding of a well-formed instruction gives it back, for all 35 constructors. (Rests on
30_encoding.md sections 1 to 3, 92_eei_decisions.md D6.) The opcode numbers are the spec's decision D6 (log 7). -/
def Obligations.DecodeEncodeRoundTrip : Prop :=
  ∀ i : Instr, i.wellFormed = true → decodeWord (encode i) = i

/-- A byte list that begins with an encoded instruction decodes to it and leaves the rest. (Rests on
30_encoding.md section 1, 20_memory.md section 4, 92_eei_decisions.md D6.) The opcode numbers are the spec's
decision D6 (log 7). -/
def Obligations.EncodedBytesDecodeWithTheRest : Prop :=
  (∀ (i : Instr) (rest : List Byte), i.wellFormed = true → decode (encodeBytes i ++ rest) = .ok (i, rest)) ∧
  (∀ bs : List Byte, bs.length < 2 → decode bs = .error .truncated)

/-- A word decodes to the instruction of the one row of the opcode map that selects it, and to the no-op if none
does. (Rests on R50, R61, 92_eei_decisions.md D6, D7.) Rests on the spec's decisions D6 and D7 (log 7, log 8). -/
def Obligations.DecodeFollowsTheOpcodeMap : Prop :=
  (∀ (w : Word), ∀ r ∈ opcodeMap, r.selects w = true → (decodeWord w).row = r.row) ∧
  (∀ (w : Word), ∀ r ∈ opcodeMap, ∀ q ∈ opcodeMap, r.selects w = true → q.selects w = true → r = q) ∧
  (∀ w : Word, unrecognised w = true → decodeWord w = .nop w)

/-- Which instruction a word is depends on its decode key alone, and the no-op arises only in families 0x0, 0x8,
0xE, 0xF. (Rule R49.) -/
def Obligations.DecodeDependsOnTheKeyAlone : Prop :=
  (∀ v w : Word, decodeKey v = decodeKey w → (decodeWord v).row = (decodeWord w).row) ∧
  (∀ w : Word, (decodeWord w).row = 35 →
    w.extractLsb' 12 4 = 0x0#4 ∨ w.extractLsb' 12 4 = 0x8#4 ∨ w.extractLsb' 12 4 = 0xE#4 ∨ w.extractLsb' 12 4 = 0xF#4) ∧
  (∀ (w : Word) (s : State), (decodeWord w).row = 35 → exec (decodeWord w) s = .next s)

/-- Every word of each row decodes to the row's instruction with its operands taken from their bits; the other
bits are ignored. (Rests on R46, 30_encoding.md section 3, 92_eei_decisions.md D6, D7.) Rests on the spec's
decisions D6 and D7 (log 7, log 8). -/
def Obligations.DecodeTakesOperandsFromTheirFields : Prop :=
  ∀ w : Word,
    let op := w.extractLsb' 12 4
    let x : RegIdx := (w.extractLsb' 8 4).toFin
    let y : RegIdx := (w.extractLsb' 4 4).toFin
    let n := w.extractLsb' 0 4
    let kk := w.extractLsb' 0 8
    let nnn := w.extractLsb' 0 12
    (op = 0x0#4 → (n = 0x0#4 → decodeWord w = .cls) ∧ (n = 0xE#4 → decodeWord w = .ret)) ∧
    (op = 0x1#4 → decodeWord w = .jp nnn) ∧ (op = 0x2#4 → decodeWord w = .call nnn) ∧
    (op = 0x3#4 → decodeWord w = .seImm x kk) ∧ (op = 0x4#4 → decodeWord w = .sneImm x kk) ∧
    (op = 0x5#4 → decodeWord w = .seReg x y) ∧ (op = 0x6#4 → decodeWord w = .ldImm x kk) ∧
    (op = 0x7#4 → decodeWord w = .addImm x kk) ∧
    (op = 0x8#4 → (n = 0x0#4 → decodeWord w = .ldReg x y) ∧ (n = 0x1#4 → decodeWord w = .orReg x y) ∧
      (n = 0x2#4 → decodeWord w = .andReg x y) ∧ (n = 0x3#4 → decodeWord w = .xorReg x y) ∧
      (n = 0x4#4 → decodeWord w = .addReg x y) ∧ (n = 0x5#4 → decodeWord w = .subReg x y) ∧
      (n = 0x6#4 → decodeWord w = .shr x y) ∧ (n = 0x7#4 → decodeWord w = .subnReg x y) ∧
      (n = 0xE#4 → decodeWord w = .shl x y)) ∧
    (op = 0x9#4 → decodeWord w = .sneReg x y) ∧ (op = 0xA#4 → decodeWord w = .ldI nnn) ∧
    (op = 0xB#4 → decodeWord w = .jpV0 nnn) ∧ (op = 0xC#4 → decodeWord w = .rnd x kk) ∧
    (op = 0xD#4 → decodeWord w = .drw x y n) ∧
    (op = 0xE#4 → (n = 0xE#4 → decodeWord w = .skp x) ∧ (n = 0x1#4 → decodeWord w = .sknp x)) ∧
    (op = 0xF#4 → (kk = 0x07#8 → decodeWord w = .ldFromDT x) ∧ (kk = 0x0A#8 → decodeWord w = .ldKey x) ∧
      (kk = 0x15#8 → decodeWord w = .ldDT x) ∧ (kk = 0x18#8 → decodeWord w = .ldST x) ∧
      (kk = 0x1E#8 → decodeWord w = .addI x) ∧ (kk = 0x29#8 → decodeWord w = .ldF x) ∧
      (kk = 0x33#8 → decodeWord w = .ldB x) ∧ (kk = 0x55#8 → decodeWord w = .storeRegs x) ∧
      (kk = 0x65#8 → decodeWord w = .loadRegs x))

/-- Exactly the words the spec lists are unrecognised. (Rests on R52, 92_eei_decisions.md D6, D7.) Rests on the
spec's decisions D6 and D7 (log 7, log 8). -/
def Obligations.UnrecognisedWordsAreTheListedOnes : Prop :=
  ∀ w : Word, unrecognised w = true ↔
    (w.extractLsb' 12 4 = 0x0#4 ∧ w.extractLsb' 0 4 ≠ 0x0#4 ∧ w.extractLsb' 0 4 ≠ 0xE#4) ∨
    (w.extractLsb' 12 4 = 0x8#4 ∧
      w.extractLsb' 0 4 ∈ [0x8#4, 0x9#4, 0xA#4, 0xB#4, 0xC#4, 0xD#4, 0xF#4]) ∨
    (w.extractLsb' 12 4 = 0xE#4 ∧ w.extractLsb' 0 4 ≠ 0x1#4 ∧ w.extractLsb' 0 4 ≠ 0xE#4) ∨
    (w.extractLsb' 12 4 = 0xF#4 ∧
      w.extractLsb' 0 8 ∉ [0x07#8, 0x0A#8, 0x15#8, 0x18#8, 0x1E#8, 0x29#8, 0x33#8, 0x55#8, 0x65#8])

/-- Every word decodes to a well-formed instruction, and its canonical word is a word of the same instruction.
(Rests on 30_encoding.md section 3, 92_eei_decisions.md D6, D7.) Rests on the spec's decisions D6 and D7 (log 7,
log 8). -/
def Obligations.DecodedInstructionsAreWellFormed : Prop :=
  ∀ w : Word, (decodeWord w).wellFormed = true ∧ decodeWord (encode (decodeWord w)) = decodeWord w

/-- Twelve words, canonical and not, decode as the spec's opcode map and its table DEC say. (Rests on R50,
95_test_vectors.md table DEC, 92_eei_decisions.md D6, D7.) Ten of the words stand in table DEC, 8AB6 and D125 are
of rows 16 and 23 of R50. The opcode numbers are the spec's decision D6 (log 7), that other bits are ignored is D7
(log 8). -/
def Obligations.SampleWordsDecode : Prop :=
  decodeWord 0x00E0 = .cls ∧ decodeWord 0x0000 = .cls ∧ decodeWord 0x0230 = .cls ∧ decodeWord 0x012E = .ret ∧
  decodeWord 0x00E1 = .nop 0x00E1 ∧ decodeWord 0x8128 = .nop 0x8128 ∧ decodeWord 0x5AB7 = .seReg 0xA 0xB ∧
  decodeWord 0x8AB6 = .shr 0xA 0xB ∧ decodeWord 0xE1FE = .skp 1 ∧ decodeWord 0xE101 = .sknp 1 ∧
  decodeWord 0xD125 = .drw 1 2 5 ∧ decodeWord 0xF165 = .loadRegs 1

/-- A step is the host's turn, then the instruction the two bytes at pc decode to, in the state with pc advanced
by 2. (Rests on 40_control_flow.md section 1, 60_exceptions.md section 2, 92_eei_decisions.md D2, D4.) That what
the host does stands in the state, as a schedule and what follows it, is the model's choice (log 3); a free turn
is a free value, and the clause holds whatever it is. That pc wraps modulo 2^16 is the spec's decision D4 (log 5).
-/
def Obligations.StepRunsTheDecodedInstruction : Prop :=
  (∀ (s : State) (i : Instr), hostQuiet s = true → decode [s.memRead s.pc, s.memRead (s.pc + 1)] = .ok (i, []) →
    step s = exec i { s with pc := s.pc + 2 }) ∧
  (∀ (s : State) (turn : List HostEvent) (rest : List (List HostEvent)), s.schedule = turn :: rest →
    step s = cycle (turn.foldl State.hostEvent { s with schedule := rest })) ∧
  (∀ (s : State) (turn : List HostEvent), s.schedule = [] → s.hostTail = .repeats turn →
    step s = cycle (turn.foldl State.hostEvent s)) ∧
  (∀ s : State, s.schedule = [] → s.hostTail = .free →
    step s = cycle ((Config.hostTurn s.freeDraws).foldl State.hostEvent { s with freeDraws := s.freeDraws + 1 })) ∧
  (∀ (s : State) (i : Instr), decode [s.memRead s.pc, s.memRead (s.pc + 1)] = .ok (i, []) →
    cycle s = exec i { s with pc := s.pc + 2 })

/-- The fetched word is the RAM byte at pc as the high byte and the byte after it as the low byte, both modulo
4096. (Rests on 20_memory.md sections 3, 4 and 6, 92_eei_decisions.md D3, D4, D5.) The reduction modulo 4096 is
the spec's decision D3 (log 4). That an odd pc is fetched from like any other is D5 (log 6), that pc + 1 wraps
modulo 2^16 is D4 (log 5). -/
def Obligations.FetchReadsTheBigEndianPair : Prop :=
  ∀ s : State, s.fetchWord.toNat =
    256 * (s.mem.read (s.pc.toNat % 4096)).toNat + (s.mem.read ((s.pc.toNat + 1) % 4096)).toNat

/-- Every 16-bit address reaches the RAM byte of its low 12 bits, for reads and writes. (Rests on 20_memory.md
section 3, 92_eei_decisions.md D3.) The reduction modulo 4096 is the spec's decision D3 (log 4). -/
def Obligations.AddressesReachRamModulo4096 : Prop :=
  (∀ (s : State) (a b : Word), a.toNat % 4096 = b.toNat % 4096 → s.memRead a = s.memRead b) ∧
  (∀ (s : State) (a b : Word) (v : Byte),
    (s.memWrite a v).memRead b = if b.toNat % 4096 = a.toNat % 4096 then v else s.memRead b)

/-- Self-modifying code: what LD [I], Vx or LD B, Vx stores at the following instruction is the next word fetched.
(Rests on 20_memory.md section 8, R40, 92_eei_decisions.md D3, D4.) Addresses reach RAM modulo 4096 by the spec's
decision D3 (log 4), and pc + 1 wraps modulo 2^16 by D4 (log 5). -/
def Obligations.StoresAreSeenByTheNextFetch : Prop :=
  (∀ (x : RegIdx) (s : State), 1 ≤ x.val → s.i = s.pc →
    ∃ t, exec (.storeRegs x) s = .next t ∧ t.pc = s.pc ∧
      t.fetchWord.toNat = 256 * (s.readV 0).toNat + (s.readV 1).toNat) ∧
  (∀ s : State, s.i = s.pc →
    ∃ t, exec (.storeRegs 0) s = .next t ∧ t.pc = s.pc ∧
      t.fetchWord.toNat = 256 * (s.readV 0).toNat + (s.memRead (s.pc + 1)).toNat) ∧
  (∀ (x : RegIdx) (s : State), s.i = s.pc →
    ∃ t, exec (.ldB x) s = .next t ∧ t.pc = s.pc ∧
      t.fetchWord.toNat = 256 * ((s.readV x).toNat / 100) + (s.readV x).toNat / 10 % 10)

/-- A word placed with withFetchWord is the next instruction to run, and nothing else in RAM changes. (Rests on
40_control_flow.md section 1, 20_memory.md section 4, 92_eei_decisions.md D3, D4.) withFetchWord is the model's
own (log 24). Addresses reach RAM modulo 4096 by the spec's decision D3 (log 4), and pc wraps modulo 2^16 by D4
(log 5). The host's turn is held in the model's own fields (log 3). -/
def Obligations.PlacedWordIsTheNextInstruction : Prop :=
  ∀ (s : State) (w : Word),
    (∃ t, t = { s with mem := t.mem, pc := s.pc + 2, schedule := s.schedule.tail } ∧
      step (s.withFetchWord 16 w.toNat) = exec (decodeWord w) t ∧
      t.memRead s.pc = w.extractLsb' 8 8 ∧ t.memRead (s.pc + 1) = w.extractLsb' 0 8 ∧
      ∀ a : Word, ramIndex a ≠ ramIndex s.pc → ramIndex a ≠ ramIndex (s.pc + 1) → t.memRead a = s.memRead a)

/-- JP nnn sets pc to nnn, JP V0, nnn to nnn plus V0 as a 16-bit sum. (Rests on 40_control_flow.md sections 3 and
6, 92_eei_decisions.md D24.) That the sum is not reduced is the spec's decision D24 (log 20). -/
def Obligations.JumpsSetThePcAndNothingElse : Prop :=
  (∀ nnn s, ∃ t, exec (.jp nnn) s = .next t ∧ t.pc.toNat = nnn.toNat ∧ t = { s with pc := t.pc }) ∧
  (∀ nnn s, ∃ t, exec (.jpV0 nnn) s = .next t ∧ t.pc.toNat = nnn.toNat + (s.readV 0).toNat ∧ t = { s with pc := t.pc })

/-- CALL pushes the address of the following instruction, raises SP by one and jumps, whenever SP is not 15.
(Rests on 40_control_flow.md section 3, 92_eei_decisions.md D15.) The bound 15 is the spec's decision D15 (log
15). -/
def Obligations.CallPushesTheReturnAddress : Prop :=
  ∀ nnn s, s.sp ≠ 15 → ∃ t, exec (.call nnn) s = .next t ∧ t.readStack s.sp = s.pc ∧
    (∀ k, k ≠ s.sp → t.readStack k = s.readStack k) ∧ t.sp.toNat = s.sp.toNat + 1 ∧ t.pc.toNat = nnn.toNat ∧
    t = { s with stack := t.stack, sp := t.sp, pc := t.pc }

/-- RET lowers SP by one and sets pc to the slot it then names, whenever SP is not 0. (Rests on 40_control_flow.md
section 2.) -/
def Obligations.RetPopsTheReturnAddress : Prop :=
  ∀ s : State, s.sp ≠ 0 → ∃ t, exec .ret s = .next t ∧ t.sp.toNat = s.sp.toNat - 1 ∧ t.pc = s.readStack t.sp ∧
    t = { s with sp := t.sp, pc := t.pc }

/-- A CALL and the RET that follows it restore pc to the address after the CALL and SP to its value before. (Rests
on 40_control_flow.md section 3, 95_test_vectors.md S9, 92_eei_decisions.md D15.) The bound 15 is the spec's
decision D15 (log 15). -/
def Obligations.CallThenRetRoundTrip : Prop :=
  ∀ (nnn : BitVec 12) (s : State) (p : Word), s.sp ≠ 15 → ∃ t u, exec (.call nnn) s = .next t ∧
    exec .ret { t with pc := p } = .next u ∧ u.pc = s.pc ∧ u.sp = s.sp ∧
    (∀ k, k ≠ s.sp → u.readStack k = s.readStack k) ∧ u = { s with stack := u.stack }

/-- RET with SP = 0 and CALL with SP = 15 are the model's faults. (Rests on 60_exceptions.md section 1,
92_eei_decisions.md D15, D22.) That the undefined cases are faults, and the bound 15, are the spec's decisions D22
and D15 (log 15). -/
def Obligations.StackEdgesHaveNoSuccessor : Prop :=
  (∀ s : State, s.sp = 0 → exec .ret s = .fault .stackUnderflow) ∧
  (∀ nnn s, s.sp = 15 → exec (.call nnn) s = .fault .stackOverflow)

/-- Each of the six skips adds 2 to pc exactly when its condition holds, and changes nothing else. (Rests on
40_control_flow.md section 4, 42_display_input.md section 4, 92_eei_decisions.md D4.) That pc wraps modulo 2^16 is
the spec's decision D4 (log 5). -/
def Obligations.SkipsAdvanceByTwoMore : Prop :=
  (∀ x kk s, exec (.seImm x kk) s = .next { s with pc := if s.readV x = kk then s.pc + 2 else s.pc }) ∧
  (∀ x kk s, exec (.sneImm x kk) s = .next { s with pc := if s.readV x = kk then s.pc else s.pc + 2 }) ∧
  (∀ x y s, exec (.seReg x y) s = .next { s with pc := if s.readV x = s.readV y then s.pc + 2 else s.pc }) ∧
  (∀ x y s, exec (.sneReg x y) s = .next { s with pc := if s.readV x = s.readV y then s.pc else s.pc + 2 }) ∧
  (∀ x s, ∀ k : KeyIdx, k.val = (s.readV x).toNat % 16 →
    exec (.skp x) s = .next { s with pc := if s.keyDown k = true then s.pc + 2 else s.pc }) ∧
  (∀ x s, ∀ k : KeyIdx, k.val = (s.readV x).toNat % 16 →
    exec (.sknp x) s = .next { s with pc := if s.keyDown k = true then s.pc else s.pc + 2 })

/-- An unrecognised word is no error: the step advances pc by 2 and changes nothing else. (Rests on R123, R69,
40_control_flow.md section 1, 92_eei_decisions.md D4, D6, D7.) Which words are unrecognised is the spec's
decisions D6 and D7 (log 7, log 8), that pc wraps modulo 2^16 is D4 (log 5). That the host is silent is said of
the model's own fields (log 3). -/
def Obligations.UnrecognisedWordsLeaveNoTrace : Prop :=
  (∀ w s, exec (.nop w) s = .next s) ∧
  (∀ s : State, hostQuiet s = true → unrecognised s.fetchWord = true → step s = .next { s with pc := s.pc + 2 })

/-- LD Vx, kk, ADD Vx, kk and LD Vx, Vy: the value written, and no flag. (Rests on 41_arithmetic_logic.md sections
2 and 3.) -/
def Obligations.LoadAddAndCopyWriteOneRegister : Prop :=
  (∀ x kk s, ∃ t, exec (.ldImm x kk) s = .next t ∧ t.readV x = kk ∧ OnlyReg x s t) ∧
  (∀ x kk s, ∃ t, exec (.addImm x kk) s = .next t ∧
    (t.readV x).toNat = ((s.readV x).toNat + kk.toNat) % 256 ∧ OnlyReg x s t) ∧
  (∀ x y s, ∃ t, exec (.ldReg x y) s = .next t ∧ t.readV x = s.readV y ∧ OnlyReg x s t)

/-- OR, AND and XOR work bit by bit on Vx and Vy into Vx, and touch no other register, VF included. (Rests on
41_arithmetic_logic.md section 3.) -/
def Obligations.BitwiseOperationsLeaveTheFlag : Prop :=
  (∀ x y s, ∃ t, exec (.orReg x y) s = .next t ∧
    (∀ j < 8, (t.readV x).getLsbD j = ((s.readV x).getLsbD j || (s.readV y).getLsbD j)) ∧ OnlyReg x s t) ∧
  (∀ x y s, ∃ t, exec (.andReg x y) s = .next t ∧
    (∀ j < 8, (t.readV x).getLsbD j = ((s.readV x).getLsbD j && (s.readV y).getLsbD j)) ∧ OnlyReg x s t) ∧
  (∀ x y s, ∃ t, exec (.xorReg x y) s = .next t ∧
    (∀ j < 8, (t.readV x).getLsbD j = ((s.readV x).getLsbD j ^^ (s.readV y).getLsbD j)) ∧ OnlyReg x s t)

/-- ADD Vx, Vy: the sum modulo 256 and the carry out, the flag written last. (Rests on 41_arithmetic_logic.md
section 4, R75.) -/
def Obligations.AddRegistersGivesSumAndCarry : Prop :=
  ∀ x y s, ∃ t, exec (.addReg x y) s = .next t ∧
    (x ≠ flagReg → (t.readV x).toNat = ((s.readV x).toNat + (s.readV y).toNat) % 256) ∧
    t.readV flagReg = (if (s.readV x).toNat + (s.readV y).toNat > 255 then 1 else 0) ∧ OnlyRegAndFlag x s t

/-- SUB and SUBN: the difference modulo 256 in the two directions, VF = 1 when there is no borrow, the flag last.
(Rests on 41_arithmetic_logic.md section 4, R75, 92_eei_decisions.md D10.) That the flag remains when x = 15 is
the spec's decision D10 (log 11). -/
def Obligations.SubtractionsGiveDifferenceAndNoBorrow : Prop :=
  (∀ x y s, ∃ t, exec (.subReg x y) s = .next t ∧
    (x ≠ flagReg → (t.readV x).toNat = ((s.readV x).toNat + 256 - (s.readV y).toNat) % 256) ∧
    t.readV flagReg = (if (s.readV x).toNat ≥ (s.readV y).toNat then 1 else 0) ∧ OnlyRegAndFlag x s t) ∧
  (∀ x y s, ∃ t, exec (.subnReg x y) s = .next t ∧
    (x ≠ flagReg → (t.readV x).toNat = ((s.readV y).toNat + 256 - (s.readV x).toNat) % 256) ∧
    t.readV flagReg = (if (s.readV y).toNat ≥ (s.readV x).toNat then 1 else 0) ∧ OnlyRegAndFlag x s t)

/-- SHR and SHL shift Vx by one in place, VF is the bit shifted out, Vy plays no part. (Rests on
41_arithmetic_logic.md section 4, R75, 92_eei_decisions.md D9, D10.) That the source is V[x] is the spec's
decision D9 (log 10); that the flag remains when x = 15 is D10 (log 11). -/
def Obligations.ShiftsByOneGiveTheDroppedBit : Prop :=
  (∀ x y s, ∃ t, exec (.shr x y) s = .next t ∧
    (x ≠ flagReg → (t.readV x).toNat = (s.readV x).toNat / 2) ∧
    (t.readV flagReg).toNat = (s.readV x).toNat % 2 ∧ OnlyRegAndFlag x s t) ∧
  (∀ x y s, ∃ t, exec (.shl x y) s = .next t ∧
    (x ≠ flagReg → (t.readV x).toNat = (s.readV x).toNat * 2 % 256) ∧
    (t.readV flagReg).toNat = (s.readV x).toNat / 128 ∧ OnlyRegAndFlag x s t)

/-- RND gives a byte with no bit outside the mask, the free byte of this draw under the mask, and draws once.
(Rests on 41_arithmetic_logic.md section 5, 92_eei_decisions.md D14.) The byte is a free value and the counter is
the model's own (log 1); the statement holds whatever the byte is. -/
def Obligations.RandomByteIsUnderTheMask : Prop :=
  ∀ x kk s, ∃ t, exec (.rnd x kk) s = .next t ∧ t.readV x = Config.rndByte s.freeDraws &&& kk ∧
    t.readV x &&& ~~~kk = 0 ∧ t.freeDraws = s.freeDraws + 1 ∧
    t = { s with v := t.v, freeDraws := t.freeDraws } ∧ ∀ r, r ≠ x → t.readV r = s.readV r

/-- A register changes only as a named destination, VF also as the flag of exactly six instructions, which write 0
or 1. (Rests on 10_state.md section 2, R12, 92_eei_decisions.md D10.) That SUB, SUBN, SHR and SHL leave VF 0 or 1
when x = 15 too is the spec's decision D10 (log 11). -/
def Obligations.OnlyDestinationsAndTheFlagChange : Prop :=
  ∀ (i : Instr) (s t : State), exec i s = .next t →
    (writesFlag i = true → t.readV flagReg = 0 ∨ t.readV flagReg = 1) ∧
    (∀ r, isDestination i r = false → (r = flagReg → writesFlag i = false) → t.readV r = s.readV r)

/-- An instruction whose operands do not name VF does not depend on VF. (Rests on 10_state.md section 2, R12.) -/
def Obligations.TheFlagIsNoHiddenInput : Prop :=
  ∀ (i : Instr) (s : State) (b : Byte), namesVF i = false →
    (∀ f, exec i s = .fault f → exec i (s.writeV flagReg b) = .fault f) ∧
    (∀ t, exec i s = .next t → ∃ u, exec i (s.writeV flagReg b) = .next u ∧ u.writeV flagReg 0 = t.writeV flagReg 0)

/-- CLS turns every pixel off and raises the redraw flag, whatever was there. (Rests on 42_display_input.md
section 2.) -/
def Obligations.ClearScreenClearsAndRaises : Prop :=
  ∀ s : State, ∃ t, exec .cls s = .next t ∧ (∀ px py, t.fb.pixel px py = false) ∧ t.redraw = true ∧
    t = { s with fb := t.fb, redraw := t.redraw }

/-- DRW flips exactly the pixels its sprite lights, each wrapped on its own, and raises the redraw flag. (Rests on
42_display_input.md section 3, 92_eei_decisions.md D3, D11, D12.) The bit order is the spec's decision D12 (log
13); that VF coordinates are read first is D11 (log 12). Sprite bytes above 0xFFF are read modulo 4096 by D3 (log
4). -/
def Obligations.DrawXorsTheWrappedSprite : Prop :=
  ∀ x y n s, ∃ t, exec (.drw x y n) s = .next t ∧
    (∀ px py, t.fb.pixel px py = (s.fb.pixel px py ^^ spriteLights s x y n px py)) ∧ t.redraw = true ∧
    t = { s with v := t.v, fb := t.fb, redraw := t.redraw } ∧ ∀ r, r ≠ flagReg → t.readV r = s.readV r

/-- After DRW the flag is 1 exactly when a lit sprite bit fell on a pixel that was on, else 0. (Rests on
42_display_input.md section 3, 92_eei_decisions.md D3, D11, D12.) The bit order is the spec's decision D12 (log
13); that VF coordinates are read first is D11 (log 12). Sprite bytes above 0xFFF are read modulo 4096 by D3 (log
4). -/
def Obligations.DrawFlagIsCollision : Prop :=
  ∀ x y n s t, exec (.drw x y n) s = .next t →
    (t.readV flagReg = 1 ↔ ∃ px py, spriteLights s x y n px py = true ∧ s.fb.pixel px py = true) ∧
    (t.readV flagReg = 0 ↔ ¬ ∃ px py, spriteLights s x y n px py = true ∧ s.fb.pixel px py = true)

/-- Drawing the same sprite twice at the same place restores every pixel, with a collision where the first draw
lit one. (Rests on 42_display_input.md section 3, 95_test_vectors.md S7, 92_eei_decisions.md D3, D12.) The flag
clause names the lit pixels and so rests on the bit order, the spec's decision D12 (log 13), and for sprite bytes
above 0xFFF on D3 (log 4). -/
def Obligations.DrawingTwiceRestoresTheScreen : Prop :=
  ∀ x y n s t u, x ≠ flagReg → y ≠ flagReg → exec (.drw x y n) s = .next t → exec (.drw x y n) t = .next u →
    u.fb = s.fb ∧
    (u.readV flagReg = 1 ↔ ∃ px py, spriteLights s x y n px py = true ∧ s.fb.pixel px py = false)

/-- With a key pressed, LD Vx, K completes with the number of a pressed key in Vx. (Rests on 42_display_input.md
section 5, 92_eei_decisions.md D16.) Which pressed key is a free value (log 2); that its number goes to Vx is
general knowledge, G6 of the spec (log 21). -/
def Obligations.KeyWaitStoresAPressedKey : Prop :=
  ∀ x s, (∃ k, s.keyDown k = true) → ∃ t k, exec (.ldKey x) s = .next t ∧ s.keyDown k = true ∧
    (t.readV x).toNat = k.val ∧ t.freeDraws = s.freeDraws + 1 ∧
    t = { s with v := t.v, freeDraws := t.freeDraws } ∧ ∀ r, r ≠ x → t.readV r = s.readV r

/-- With no key pressed, LD Vx, K takes pc back by 2 and changes nothing else; with no host event it re-executes
for ever. (Rests on 42_display_input.md section 5, 70_reset_and_hazards.md section 6, 92_eei_decisions.md D4,
D16.) That the current level of the keys is looked at is the spec's decision D16 (log 21), that pc wraps modulo
2^16 is D4 (log 5). That the host is silent is said of the model's own fields (log 3). -/
def Obligations.KeyWaitRepeatsWhileNoKeyIsDown : Prop :=
  (∀ x s, (∀ k, s.keyDown k = false) → exec (.ldKey x) s = .next { s with pc := s.pc - 2 }) ∧
  (∀ (n : Nat) (x : RegIdx) (s : State), hostQuiet s = true → decodeWord s.fetchWord = .ldKey x →
    (∀ k, s.keyDown k = false) → core.run n s = .next s)

/-- The two timers: written by LD DT and LD ST, DT read by LD Vx, DT, ST by no instruction, counted down by Tick
alone, clamped at 0. (Rests on 10_state.md section 7, R17, 60_exceptions.md sections 3 and 4, 92_eei_decisions.md
D17.) That Tick counts the sound timer down and that the host can read both timers is the spec's decision D17 (log
16). -/
def Obligations.TimersFollowTheirRule : Prop :=
  (State.reset.dt = 0 ∧ State.reset.st = 0) ∧
  (∀ x s, ∃ t, exec (.ldDT x) s = .next t ∧ t = { s with dt := s.readV x }) ∧
  (∀ x s, ∃ t, exec (.ldST x) s = .next t ∧ t = { s with st := s.readV x }) ∧
  (∀ x s, ∃ t, exec (.ldFromDT x) s = .next t ∧ t.readV x = s.dt ∧ OnlyReg x s t) ∧
  (∀ i s t, exec i s = .next t → ((∀ x, i ≠ .ldDT x) → t.dt = s.dt) ∧ ((∀ x, i ≠ .ldST x) → t.st = s.st)) ∧
  (∀ s : State, (s.hostEvent .tick).dt.toNat = s.dt.toNat - 1 ∧ (s.hostEvent .tick).st.toNat = s.st.toNat - 1) ∧
  (∀ (s : State) (e : HostEvent), e ≠ .tick → e ≠ .reset → (s.hostEvent e).dt = s.dt ∧ (s.hostEvent e).st = s.st) ∧
  (∀ i (s : State) (b : Byte), (∀ f, exec i s = .fault f → exec i { s with st := b } = .fault f) ∧
    ∀ t, exec i s = .next t → ∃ u, exec i { s with st := b } = .next u ∧ u = { t with st := u.st }) ∧
  (∀ s : State, s.hostReply .readTimers = .timers s.dt s.st ∧ s.hostEvent .readTimers = s)

/-- LD I, ADD I and LD F: the value I receives, with no flag. (Rests on 43_timer_memory.md section 3,
92_eei_decisions.md D4.) That I is kept whole, modulo 2^16, is the spec's decision D4 (log 5). -/
def Obligations.IndexInstructionsSetI : Prop :=
  (∀ nnn s, ∃ t, exec (.ldI nnn) s = .next t ∧ t.i.toNat = nnn.toNat ∧ t = { s with i := t.i }) ∧
  (∀ x s, ∃ t, exec (.addI x) s = .next t ∧ t.i.toNat = (s.i.toNat + (s.readV x).toNat) % 65536 ∧
    t = { s with i := t.i }) ∧
  (∀ x s, ∃ t, exec (.ldF x) s = .next t ∧ t.i.toNat = 5 * ((s.readV x).toNat % 16) ∧ t = { s with i := t.i })

/-- LD B, Vx stores the hundreds, tens and ones of Vx at I, I + 1, I + 2 and nothing else anywhere. (Rests on
43_timer_memory.md section 4, 92_eei_decisions.md D3, D4.) Addresses reach RAM modulo 4096, the spec's decision D3
(log 4). The addresses wrap modulo 2^16 by D4 (log 5). -/
def Obligations.BcdStoreWritesThreeDigits : Prop :=
  ∀ x s, ∃ t, exec (.ldB x) s = .next t ∧ (t.memRead s.i).toNat = (s.readV x).toNat / 100 ∧
    (t.memRead (s.i + 1)).toNat = (s.readV x).toNat / 10 % 10 ∧
    (t.memRead (s.i + 2)).toNat = (s.readV x).toNat % 10 ∧
    (∀ a, ramIndex a ≠ ramIndex s.i → ramIndex a ≠ ramIndex (s.i + 1) → ramIndex a ≠ ramIndex (s.i + 2) →
      t.memRead a = s.memRead a) ∧ t = { s with mem := t.mem }

/-- LD [I], Vx stores V0 to Vx at I upward, leaves every other byte, and leaves I one past the last address.
(Rests on 43_timer_memory.md section 4, 92_eei_decisions.md D3, D4.) Addresses reach RAM modulo 4096, the spec's
decision D3 (log 4). That I wraps modulo 2^16 is D4 (log 5). -/
def Obligations.BlockStoreWritesV0ToVx : Prop :=
  ∀ x s, ∃ t, exec (.storeRegs x) s = .next t ∧
    (∀ r, r ≤ x → t.memRead (s.i + BitVec.ofNat 16 r.val) = s.readV r) ∧
    (∀ a, (∀ r, r ≤ x → ramIndex a ≠ ramIndex (s.i + BitVec.ofNat 16 r.val)) → t.memRead a = s.memRead a) ∧
    t.i.toNat = (s.i.toNat + x.val + 1) % 65536 ∧ t = { s with mem := t.mem, i := t.i }

/-- LD Vx, [I] loads V0 to Vx from I upward, leaves the other registers and RAM, and leaves I one past the last
address. (Rests on 43_timer_memory.md section 4, 92_eei_decisions.md D3, D4.) Addresses reach RAM modulo 4096 by
the spec's decision D3 (log 4), and I wraps modulo 2^16 by D4 (log 5). -/
def Obligations.BlockLoadReadsV0ToVx : Prop :=
  ∀ x s, ∃ t, exec (.loadRegs x) s = .next t ∧
    (∀ r, r ≤ x → t.readV r = s.memRead (s.i + BitVec.ofNat 16 r.val)) ∧
    (∀ r, x < r → t.readV r = s.readV r) ∧ t.i.toNat = (s.i.toNat + x.val + 1) % 65536 ∧
    (∀ a, t.memRead a = s.memRead a) ∧ t = { s with v := t.v, i := t.i }

/-- Registers stored with LD [I], Vx come back with LD Vx, [I] from the same I, whatever they held in between.
(Rests on 43_timer_memory.md section 4, 92_eei_decisions.md D3, D4.) Addresses reach RAM modulo 4096 by the spec's
decision D3 (log 4), and I wraps modulo 2^16 by D4 (log 5). -/
def Obligations.BlockStoreThenLoadRestores : Prop :=
  ∀ (x : RegIdx) (s t : State) (w : Vector Byte 16), exec (.storeRegs x) s = .next t →
    ∃ u, exec (.loadRegs x) { t with v := w, i := s.i } = .next u ∧ (∀ r, r ≤ x → u.readV r = s.readV r) ∧ u.i = t.i

/-- Which instructions may write each piece of state. (Rests on 10_state.md section 11, R23.) The clauses on what
the host does next and on the count of free values are the model's, about its own fields (log 3; log 1 and log 2),
and no part of R23. -/
def Obligations.InstructionsWriteOnlyWhatTheTableLets : Prop :=
  ∀ (i : Instr) (s t : State), exec i s = .next t →
    t.keys = s.keys ∧ t.schedule = s.schedule ∧ t.hostTail = s.hostTail ∧
    ((∀ nnn, i ≠ .call nnn) → t.stack = s.stack) ∧ ((∀ nnn, i ≠ .call nnn) → i ≠ .ret → t.sp = s.sp) ∧
    (writesPc i = false → t.pc = s.pc) ∧ (writesI i = false → t.i = s.i) ∧
    ((∀ x, i ≠ .ldDT x) → t.dt = s.dt) ∧ ((∀ x, i ≠ .ldST x) → t.st = s.st) ∧
    (writesDisplay i = false → t.fb = s.fb ∧ t.redraw = s.redraw) ∧ (writesDisplay i = true → t.redraw = true) ∧
    (writesRam i = false → ∀ a, t.memRead a = s.memRead a) ∧ (drawsFree i = false → t.freeDraws = s.freeDraws)

/-- Every step keeps the invariant: RAM stays in its canonical form, host events included. (Rests on 20_memory.md
sections 1 and 5, 70_reset_and_hazards.md sections 1 and 2.) The canonical form is the model's own (log 23). -/
def Obligations.StepKeepsMemoryCanonical : Prop :=
  ∀ s t : State, StateInv s → step s = .next t → StateInv t

/-- A step has a successor unless it is RET with SP = 0 or CALL with SP = 15; no step is refused. (Rests on
60_exceptions.md section 1, 70_reset_and_hazards.md section 4, R145, 92_eei_decisions.md D15, D22.) The bound SP =
15 is the spec's decision D15, and that the two cases are faults is D22 (log 15). The host's turn is held in the
model's own fields (log 3). -/
def Obligations.StepStopsOnlyAtTheStackEdges : Prop :=
  ∀ s : State,
    ((∃ t, step s = .next t) ↔ hasSuccessor (decodeWord s.hostTurn.fetchWord) s.hostTurn = true) ∧
    (∀ r, step s ≠ .refused r) ∧
    (step s = .fault .stackUnderflow ↔ decodeWord s.hostTurn.fetchWord = .ret ∧ s.hostTurn.sp = 0) ∧
    (step s = .fault .stackOverflow ↔ (∃ nnn, decodeWord s.hostTurn.fetchWord = .call nnn) ∧ s.hostTurn.sp = 15)

/-- A run stays within defined behaviour if and only if it never executes RET with SP = 0 nor CALL with SP = 15.
(Rests on 70_reset_and_hazards.md section 4, R145, 92_eei_decisions.md D15, D22.) The bound SP = 15 is the spec's
decision D15, and that the two cases stop a run is D22 (log 15). The host's turns are held in the model's own
fields (log 3). -/
def Obligations.SafeRunsNeverMeetTheStackEdges : Prop :=
  ∀ (n : Nat) (s : State), SafeRun n s ↔
    ∀ k < n, ∃ t, core.run k s = .next t ∧ hasSuccessor (decodeWord t.hostTurn.fetchWord) t.hostTurn = true

/-- The sound timer and the redraw flag are outputs: no run of any length, whatever the host does, depends on
them. (Rests on 10_state.md sections 7 and 8, R22.) Both runs meet the same host (log 3) and draw the same free
values (log 1, log 2), the model's own fields. -/
def Obligations.SoundTimerAndRedrawNeverFlowBack : Prop :=
  ∀ (n : Nat) (s t : State), SameButOutputs s t → SameOutcomeButOutputs (core.run n s) (core.run n t)

/-- A program at a JP to its own address stays there, the whole state unchanged, as long as the host does nothing.
(Rests on 70_reset_and_hazards.md section 6, 92_eei_decisions.md D25.) What counts as finished is the spec's
convention D25 (log 29). That the host is silent is said of the model's own fields (log 3). -/
def Obligations.FinishedProgramsStay : Prop :=
  ∀ (n : Nat) (s : State), finished s = true → hostQuiet s = true → core.run n s = .next s

/-- A program at a JP to its own address stays there under any host events but Load and Reset; only timers, keys
and the redraw flag change. (Rests on 70_reset_and_hazards.md section 6, 92_eei_decisions.md D25.) What counts as
finished is the spec's convention D25 (log 29). The hypothesis on the host and the clauses on what is left of the
schedule and on the count of free values speak of the model's own fields (log 3). -/
def Obligations.FinishedProgramsStayUnderHostEvents : Prop :=
  ∀ (n : Nat) (s : State), finished s = true →
    HostKeepsProgram s →
    ∃ t, core.run n s = .next t ∧ finished t = true ∧ t.schedule = s.schedule.drop n ∧
      (s.hostTail ≠ .free → t.freeDraws = s.freeDraws) ∧
      t = { s with dt := t.dt, st := t.st, redraw := t.redraw, keys := t.keys, schedule := t.schedule,
                   freeDraws := t.freeDraws }

/-- After n Ticks each timer holds its value less n, never below 0, and nothing else has changed. (Rests on
60_exceptions.md section 3, 92_eei_decisions.md D17.) That Tick counts the sound timer down is the spec's decision
D17 (log 16). -/
def Obligations.TicksCountBothTimersDown : Prop :=
  ∀ (n : Nat) (s : State), ∃ t, s.hostEvents (List.replicate n .tick) = t ∧ t.dt.toNat = s.dt.toNat - n ∧
    t.st.toNat = s.st.toNat - n ∧ t = { s with dt := t.dt, st := t.st }

/-- KeyWrite(k, b) sets KEY[k] to b and changes nothing else, and the core never writes a key. (Rule R127.) -/
def Obligations.KeyWriteSetsOneKey : Prop :=
  (∀ (s : State) (k : KeyIdx) (b : Bool), (s.hostEvent (.keyWrite k b)).keyDown k = b ∧
    (∀ j, j ≠ k → (s.hostEvent (.keyWrite k b)).keyDown j = s.keyDown j) ∧
    s.hostEvent (.keyWrite k b) = { s with keys := (s.hostEvent (.keyWrite k b)).keys } ∧
    s.hostReply (.keyWrite k b) = .none) ∧
  (∀ (s : State) (e : HostEvent) (es : List HostEvent), s.hostEvents (e :: es) = (s.hostEvent e).hostEvents es) ∧
  (∀ i s t, exec i s = .next t → ∀ k, t.keyDown k = s.keyDown k)

/-- ReadFrame gives all pixels and the redraw flag and changes nothing. (Rule R128.) -/
def Obligations.ReadingTheFrameChangesNothing : Prop :=
  (∀ s : State, s.hostReply .readFrame = .frame s.fb s.redraw ∧ s.hostEvent .readFrame = s) ∧
  (∀ (s : State) (e : HostEvent), e ≠ .reset → ∀ px py, (s.hostEvent e).fb.pixel px py = s.fb.pixel px py)

/-- RedrawClear sets the redraw flag to 0 and nothing else; ReadTimers gives DT and ST and changes nothing. (Rests
on 60_exceptions.md section 4, 92_eei_decisions.md D17, D23.) That the clear is an event of its own is the spec's
decision D23 (log 19), that the host can read the timers D17 (log 16). -/
def Obligations.RedrawClearAndReadTimers : Prop :=
  (∀ s : State, s.hostEvent .redrawClear = { s with redraw := false }) ∧
  (∀ s : State, s.hostReply .readTimers = .timers s.dt s.st ∧ s.hostEvent .readTimers = s)

/-- Load of at most 3584 bytes copies them to 0x200 upward and changes nothing else. (Rests on
70_reset_and_hazards.md section 2, 92_eei_decisions.md D3, D19.) That the rest of RAM is kept is the spec's
decision D19 (log 18). RAM is read through addresses modulo 4096, D3 (log 4). -/
def Obligations.LoadCopiesTheImageAt200 : Prop :=
  ∀ (s : State) (image : List Byte), image.length ≤ 3584 → ∃ t, s.hostEvent (.load image) = t ∧
    s.hostReply (.load image) = .loaded ∧
    (∀ j (h : j < image.length), t.memRead (BitVec.ofNat 16 (0x200 + j)) = image[j]) ∧
    (∀ a : Word, a.toNat % 4096 < 0x200 ∨ 0x200 + image.length ≤ a.toNat % 4096 → t.memRead a = s.memRead a) ∧
    t = { s with mem := t.mem }

/-- Load of more than 3584 bytes fails with ImageTooLarge and leaves the whole state as it was. (Rule R121.) -/
def Obligations.TooLargeImagesChangeNothing : Prop :=
  (∀ (s : State) (image : List Byte), 4096 - 0x200 < image.length →
    s.hostReply (.load image) = .imageTooLarge ∧ s.hostEvent (.load image) = s) ∧
  (∀ (s : State) (e : HostEvent), s.hostReply e = .imageTooLarge → ∃ image, e = .load image ∧ 3584 < image.length)

/-- Reset, whenever the host invokes it, puts every piece of the spec's state to its reset value. (Rests on
70_reset_and_hazards.md section 1, 92_eei_decisions.md D18.) That Reset may be invoked again is the spec's
decision D18; what becomes of the model's own fields is the model's choice (log 17). -/
def Obligations.HostResetRestoresTheResetState : Prop :=
  ∀ s : State, s.hostEvent .reset = { State.reset with freeDraws := s.freeDraws, schedule := s.schedule, hostTail := s.hostTail }

/-- Whatever finite sequences of host events come before each of n Steps, that interleaving is a run of the
machine. (Rests on 60_exceptions.md section 2, R125, 20_memory.md section 8, R39, 92_eei_decisions.md D2.) That
every order is allowed is the spec's decision D2 (log 22); that the turns stand in the state is the model's choice
(log 3). -/
def Obligations.EveryFiniteInterleavingIsARun : Prop :=
  ∀ (turns rest : List (List HostEvent)) (s : State),
    core.run turns.length { s with schedule := turns ++ rest } = interleaved turns { s with schedule := rest }

/-- A host may do the same before every Step for ever, a Tick for one: no length of run ends its turns. (Rests on
60_exceptions.md section 2, R125, 70_reset_and_hazards.md section 6, 92_eei_decisions.md D2.) That the turns stand
in the state is the model's choice (log 3). -/
def Obligations.HostTurnsMayRecurForEver : Prop :=
  ∀ (n : Nat) (turn : List HostEvent) (s : State), s.schedule = [] → s.hostTail = .repeats turn →
    core.run n s = interleaved (List.replicate n turn) s
end

