-- ==== Sys2Proof/Laws/Encoding.lean ====
section
/-! SUPPORT. The fields of the words the encoder builds, and the masked words of the opcode map by their fields. -/

namespace Sys2Proof

/-! Words and fields as numbers. -/

theorem toNat_append_add {m k : Nat} (a : BitVec m) (b : BitVec k) :
    (a ++ b).toNat = a.toNat * 2 ^ k + b.toNat := by
  rw [BitVec.toNat_append, ← Nat.shiftLeft_add_eq_or_of_lt b.isLt, Nat.shiftLeft_eq]

@[simp] theorem regBits_toNat (x : RegIdx) : (regBits x).toNat = x.val := rfl

theorem toNat_wordNNN (op : BitVec 4) (nnn : BitVec 12) : (wordNNN op nnn).toNat = op.toNat * 4096 + nnn.toNat :=
  toNat_append_add op nnn

theorem toNat_wordXKK (op : BitVec 4) (x : RegIdx) (kk : Byte) :
    (wordXKK op x kk).toNat = op.toNat * 4096 + x.val * 256 + kk.toNat := by
  refine (toNat_append_add (op ++ regBits x) kk).trans ?_
  rw [toNat_append_add, regBits_toNat]; omega

theorem toNat_wordXYN (op : BitVec 4) (x y : RegIdx) (n : BitVec 4) :
    (wordXYN op x y n).toNat = op.toNat * 4096 + x.val * 256 + y.val * 16 + n.toNat := by
  refine (toNat_append_add (op ++ regBits x ++ regBits y) n).trans ?_
  rw [toNat_append_add, toNat_append_add, regBits_toNat, regBits_toNat]; omega

theorem toNat_wordOfBytes (hi lo : Byte) : (wordOfBytes hi lo).toNat = hi.toNat * 256 + lo.toNat :=
  toNat_append_add hi lo

theorem toNat_fieldOp (w : Word) : (fieldOp w).toNat = w.toNat / 4096 := by
  have := w.isLt
  simp only [fieldOp, BitVec.extractLsb'_toNat, Nat.shiftRight_eq_div_pow]; omega

theorem val_fieldX (w : Word) : (fieldX w).val = w.toNat / 256 % 16 := by
  simp [fieldX, Nat.shiftRight_eq_div_pow]

theorem val_fieldY (w : Word) : (fieldY w).val = w.toNat / 16 % 16 := by
  simp [fieldY, Nat.shiftRight_eq_div_pow]

theorem toNat_fieldN (w : Word) : (fieldN w).toNat = w.toNat % 16 := by
  simp [fieldN]

theorem toNat_fieldKK (w : Word) : (fieldKK w).toNat = w.toNat % 256 := by
  simp [fieldKK]

theorem toNat_fieldNNN (w : Word) : (fieldNNN w).toNat = w.toNat % 4096 := by
  simp [fieldNNN]

/-! Format `NNN`. -/

@[simp] theorem fieldOp_wordNNN (op : BitVec 4) (nnn : BitVec 12) : fieldOp (wordNNN op nnn) = op := by
  apply BitVec.eq_of_toNat_eq
  rw [toNat_fieldOp, toNat_wordNNN]; omega

@[simp] theorem fieldNNN_wordNNN (op : BitVec 4) (nnn : BitVec 12) : fieldNNN (wordNNN op nnn) = nnn := by
  apply BitVec.eq_of_toNat_eq
  rw [toNat_fieldNNN, toNat_wordNNN]; omega

/-! Formats `XKK` and `X`. -/

@[simp] theorem fieldOp_wordXKK (op : BitVec 4) (x : RegIdx) (kk : Byte) : fieldOp (wordXKK op x kk) = op := by
  apply BitVec.eq_of_toNat_eq
  rw [toNat_fieldOp, toNat_wordXKK]; omega

@[simp] theorem fieldX_wordXKK (op : BitVec 4) (x : RegIdx) (kk : Byte) : fieldX (wordXKK op x kk) = x := by
  apply Fin.ext
  rw [val_fieldX, toNat_wordXKK]; omega

@[simp] theorem fieldKK_wordXKK (op : BitVec 4) (x : RegIdx) (kk : Byte) : fieldKK (wordXKK op x kk) = kk := by
  apply BitVec.eq_of_toNat_eq
  rw [toNat_fieldKK, toNat_wordXKK]; omega

@[simp] theorem fieldN_wordXKK (op : BitVec 4) (x : RegIdx) (kk : Byte) :
    fieldN (wordXKK op x kk) = kk.extractLsb' 0 4 := by
  apply BitVec.eq_of_toNat_eq
  rw [toNat_fieldN, toNat_wordXKK, BitVec.extractLsb'_toNat, Nat.shiftRight_zero]; omega

/-! Formats `XY` and `XYN`. -/

@[simp] theorem fieldOp_wordXYN (op : BitVec 4) (x y : RegIdx) (n : BitVec 4) : fieldOp (wordXYN op x y n) = op := by
  apply BitVec.eq_of_toNat_eq
  rw [toNat_fieldOp, toNat_wordXYN]; omega

@[simp] theorem fieldX_wordXYN (op : BitVec 4) (x y : RegIdx) (n : BitVec 4) : fieldX (wordXYN op x y n) = x := by
  apply Fin.ext
  rw [val_fieldX, toNat_wordXYN]; omega

@[simp] theorem fieldY_wordXYN (op : BitVec 4) (x y : RegIdx) (n : BitVec 4) : fieldY (wordXYN op x y n) = y := by
  apply Fin.ext
  rw [val_fieldY, toNat_wordXYN]; omega

@[simp] theorem fieldN_wordXYN (op : BitVec 4) (x y : RegIdx) (n : BitVec 4) : fieldN (wordXYN op x y n) = n := by
  apply BitVec.eq_of_toNat_eq
  rw [toNat_fieldN, toNat_wordXYN]; omega

/-! A word is its fields. -/

theorem eq_wordXYN (w : Word) : w = wordXYN (fieldOp w) (fieldX w) (fieldY w) (fieldN w) := by
  apply BitVec.eq_of_toNat_eq
  rw [toNat_wordXYN, toNat_fieldOp, val_fieldX, val_fieldY, toNat_fieldN]; omega

theorem eq_wordXKK (w : Word) : w = wordXKK (fieldOp w) (fieldX w) (fieldKK w) := by
  apply BitVec.eq_of_toNat_eq
  rw [toNat_wordXKK, toNat_fieldOp, val_fieldX, toNat_fieldKK]; omega

/-! The three masks of the opcode map keep exactly the decode keys (30_encoding R49). -/

theorem wordXYN_and (op n mop mn : BitVec 4) (x y mx my : RegIdx) :
    wordXYN op x y n &&& wordXYN mop mx my mn =
      wordOfNibbles (op &&& mop) (regBits x &&& regBits mx) (regBits y &&& regBits my) (n &&& mn) := by
  show HAnd.hAnd (op ++ regBits x ++ regBits y ++ n) (mop ++ regBits mx ++ regBits my ++ mn) = _
  simp only [BitVec.and_append]; rfl

theorem and_F00F (w : Word) : w &&& 0xF00F#16 = wordXYN (fieldOp w) 0 0 (fieldN w) := by
  have h : (0xF00F#16) = wordXYN 0xF 0 0 0xF := by decide
  conv => lhs; rw [eq_wordXYN w, h, wordXYN_and]
  have e : ∀ a : BitVec 4, a &&& 0xF = a := by decide
  have z : ∀ a : BitVec 4, a &&& regBits 0 = regBits 0 := by decide
  rw [e, e, z, z]; rfl

theorem and_F000 (w : Word) : w &&& 0xF000#16 = wordXYN (fieldOp w) 0 0 0 := by
  have h : (0xF000#16) = wordXYN 0xF 0 0 0 := by decide
  conv => lhs; rw [eq_wordXYN w, h, wordXYN_and]
  have e : ∀ a : BitVec 4, a &&& 0xF = a := by decide
  have z : ∀ a : BitVec 4, a &&& regBits 0 = regBits 0 := by decide
  have z' : ∀ a : BitVec 4, a &&& 0 = 0 := by decide
  rw [e, z, z, z']; rfl

theorem and_F0FF (w : Word) : w &&& 0xF0FF#16 = wordXKK (fieldOp w) 0 (fieldKK w) := by
  have h : (0xF0FF#16) = wordXYN 0xF 0 0xF 0xF := by decide
  have e : ∀ a : BitVec 4, a &&& 0xF = a := by decide
  have z : ∀ a : BitVec 4, a &&& regBits 0 = regBits 0 := by decide
  have e' : ∀ a : BitVec 4, a &&& regBits 0xF = a := by decide
  have hw : w &&& 0xF0FF#16 = wordXYN (fieldOp w) 0 (fieldY w) (fieldN w) := by
    conv => lhs; rw [eq_wordXYN w, h, wordXYN_and]
    rw [e, e, z, e']; rfl
  rw [hw]
  apply BitVec.eq_of_toNat_eq
  rw [toNat_wordXYN, toNat_wordXKK, val_fieldY, toNat_fieldN, toNat_fieldKK]
  simp only [Fin.val_zero]; omega

/-! Bytes. -/

/-- The two bytes of a word put together again are the word. -/
theorem wordOfBytes_split (w : Word) : wordOfBytes (w.extractLsb' 8 8) (w.extractLsb' 0 8) = w := by
  apply BitVec.eq_of_toNat_eq
  have := w.isLt
  rw [toNat_wordOfBytes]
  simp only [BitVec.extractLsb'_toNat, Nat.shiftRight_eq_div_pow]; omega

theorem decode_wordBytes (w : Word) (rest : List Byte) : decode (wordBytes w ++ rest) = .ok (decodeWord w, rest) := by
  simp only [wordBytes, List.cons_append, List.nil_append, decode, wordOfBytes_split]

theorem tableWord_16 (w : Word) : tableWord 16 w.toNat = w := by
  have := w.isLt
  rw [tableWord, Nat.mod_eq_of_lt this, BitVec.ofNat_toNat, BitVec.setWidth_eq]

theorem decodeTableWord_16 (w : Word) : decodeTableWord 16 w.toNat = some (decodeWord w) := by
  have h := decode_wordBytes w []
  rw [List.append_nil] at h
  rw [decodeTableWord, tableWord_16, h]

end Sys2Proof

namespace Sys2Proof

/-! Which rows a word selects depends on its decode key alone (R49). -/

/-- The row is selected by words with this family, low nibble and low byte. -/
def OpcodeRow.matchesKey (r : OpcodeRow) (op n : BitVec 4) (kk : Byte) : Bool :=
  op == fieldOp r.value &&
    (if r.mask = 0xF000 then true else if r.mask = 0xF00F then n == fieldN r.value else kk == fieldKK r.value)

theorem wordXYN_beq (a b n m : BitVec 4) : (wordXYN a 0 0 n == wordXYN b 0 0 m) = (a == b && n == m) := by
  rw [Bool.eq_iff_iff, beq_iff_eq, Bool.and_eq_true, beq_iff_eq, beq_iff_eq]
  exact ⟨fun h => ⟨by simpa using congrArg fieldOp h, by simpa using congrArg fieldN h⟩, fun h => by rw [h.1, h.2]⟩

theorem wordXKK_beq (a b : BitVec 4) (k l : Byte) : (wordXKK a 0 k == wordXKK b 0 l) = (a == b && k == l) := by
  rw [Bool.eq_iff_iff, beq_iff_eq, Bool.and_eq_true, beq_iff_eq, beq_iff_eq]
  exact ⟨fun h => ⟨by simpa using congrArg fieldOp h, by simpa using congrArg fieldKK h⟩, fun h => by rw [h.1, h.2]⟩

/-- Every row of the map has one of three masks, and no bit set outside its mask. -/
theorem opcodeMap_shape : ∀ r ∈ opcodeMap,
    (r.mask = 0xF000 ∧ r.value = wordXYN (fieldOp r.value) 0 0 0) ∨
    (r.mask = 0xF00F ∧ r.value = wordXYN (fieldOp r.value) 0 0 (fieldN r.value)) ∨
    (r.mask = 0xF0FF ∧ r.value = wordXKK (fieldOp r.value) 0 (fieldKK r.value)) := by
  decide

theorem selects_eq_matchesKey {r : OpcodeRow} (hr : r ∈ opcodeMap) (w : Word) :
    r.selects w = r.matchesKey (fieldOp w) (fieldN w) (fieldKK w) := by
  rcases opcodeMap_shape r hr with ⟨hm, hv⟩ | ⟨hm, hv⟩ | ⟨hm, hv⟩
  · unfold OpcodeRow.selects OpcodeRow.matchesKey
    rw [hm, if_pos rfl]
    conv => lhs; rw [hv]
    exact (congrArg (· == _) (and_F000 w)).trans (wordXYN_beq _ _ 0 0)
  · unfold OpcodeRow.selects OpcodeRow.matchesKey
    rw [hm, if_neg (by decide), if_pos rfl]
    conv => lhs; rw [hv]
    exact (congrArg (· == _) (and_F00F w)).trans (wordXYN_beq _ _ _ _)
  · unfold OpcodeRow.selects OpcodeRow.matchesKey
    rw [hm, if_neg (by decide), if_neg (by decide)]
    conv => lhs; rw [hv]
    exact (congrArg (· == _) (and_F0FF w)).trans (wordXKK_beq _ _ _ _)

end Sys2Proof
end

