-- ==== Sys2Proof/Laws/State.lean ====
section
/-! SUPPORT. One lemma for each field under each update of the state, true by unfolding once. -/

namespace Sys2Proof.Machine

variable (s : State)

/-! `writeV`. -/

@[simp] theorem State.writeV_v (x : RegIdx) (b : Byte) : (s.writeV x b).v = s.v.set x.val b := rfl
@[simp] theorem State.writeV_i (x : RegIdx) (b : Byte) : (s.writeV x b).i = s.i := rfl
@[simp] theorem State.writeV_pc (x : RegIdx) (b : Byte) : (s.writeV x b).pc = s.pc := rfl
@[simp] theorem State.writeV_stack (x : RegIdx) (b : Byte) : (s.writeV x b).stack = s.stack := rfl
@[simp] theorem State.writeV_sp (x : RegIdx) (b : Byte) : (s.writeV x b).sp = s.sp := rfl
@[simp] theorem State.writeV_dt (x : RegIdx) (b : Byte) : (s.writeV x b).dt = s.dt := rfl
@[simp] theorem State.writeV_st (x : RegIdx) (b : Byte) : (s.writeV x b).st = s.st := rfl
@[simp] theorem State.writeV_fb (x : RegIdx) (b : Byte) : (s.writeV x b).fb = s.fb := rfl
@[simp] theorem State.writeV_redraw (x : RegIdx) (b : Byte) : (s.writeV x b).redraw = s.redraw := rfl
@[simp] theorem State.writeV_keys (x : RegIdx) (b : Byte) : (s.writeV x b).keys = s.keys := rfl
@[simp] theorem State.writeV_mem (x : RegIdx) (b : Byte) : (s.writeV x b).mem = s.mem := rfl
@[simp] theorem State.writeV_freeDraws (x : RegIdx) (b : Byte) : (s.writeV x b).freeDraws = s.freeDraws := rfl
@[simp] theorem State.writeV_schedule (x : RegIdx) (b : Byte) : (s.writeV x b).schedule = s.schedule := rfl
@[simp] theorem State.writeV_hostTail (x : RegIdx) (b : Byte) : (s.writeV x b).hostTail = s.hostTail := rfl

/-! `setI`. -/

@[simp] theorem State.setI_v (a : Word) : (s.setI a).v = s.v := rfl
@[simp] theorem State.setI_i (a : Word) : (s.setI a).i = a := rfl
@[simp] theorem State.setI_pc (a : Word) : (s.setI a).pc = s.pc := rfl
@[simp] theorem State.setI_stack (a : Word) : (s.setI a).stack = s.stack := rfl
@[simp] theorem State.setI_sp (a : Word) : (s.setI a).sp = s.sp := rfl
@[simp] theorem State.setI_dt (a : Word) : (s.setI a).dt = s.dt := rfl
@[simp] theorem State.setI_st (a : Word) : (s.setI a).st = s.st := rfl
@[simp] theorem State.setI_fb (a : Word) : (s.setI a).fb = s.fb := rfl
@[simp] theorem State.setI_redraw (a : Word) : (s.setI a).redraw = s.redraw := rfl
@[simp] theorem State.setI_keys (a : Word) : (s.setI a).keys = s.keys := rfl
@[simp] theorem State.setI_mem (a : Word) : (s.setI a).mem = s.mem := rfl
@[simp] theorem State.setI_freeDraws (a : Word) : (s.setI a).freeDraws = s.freeDraws := rfl
@[simp] theorem State.setI_schedule (a : Word) : (s.setI a).schedule = s.schedule := rfl
@[simp] theorem State.setI_hostTail (a : Word) : (s.setI a).hostTail = s.hostTail := rfl

/-! `setPc`. -/

@[simp] theorem State.setPc_v (a : Word) : (s.setPc a).v = s.v := rfl
@[simp] theorem State.setPc_i (a : Word) : (s.setPc a).i = s.i := rfl
@[simp] theorem State.setPc_pc (a : Word) : (s.setPc a).pc = a := rfl
@[simp] theorem State.setPc_stack (a : Word) : (s.setPc a).stack = s.stack := rfl
@[simp] theorem State.setPc_sp (a : Word) : (s.setPc a).sp = s.sp := rfl
@[simp] theorem State.setPc_dt (a : Word) : (s.setPc a).dt = s.dt := rfl
@[simp] theorem State.setPc_st (a : Word) : (s.setPc a).st = s.st := rfl
@[simp] theorem State.setPc_fb (a : Word) : (s.setPc a).fb = s.fb := rfl
@[simp] theorem State.setPc_redraw (a : Word) : (s.setPc a).redraw = s.redraw := rfl
@[simp] theorem State.setPc_keys (a : Word) : (s.setPc a).keys = s.keys := rfl
@[simp] theorem State.setPc_mem (a : Word) : (s.setPc a).mem = s.mem := rfl
@[simp] theorem State.setPc_freeDraws (a : Word) : (s.setPc a).freeDraws = s.freeDraws := rfl
@[simp] theorem State.setPc_schedule (a : Word) : (s.setPc a).schedule = s.schedule := rfl
@[simp] theorem State.setPc_hostTail (a : Word) : (s.setPc a).hostTail = s.hostTail := rfl

/-! `advance`. -/

@[simp] theorem State.advance_v : (s.advance).v = s.v := rfl
@[simp] theorem State.advance_i : (s.advance).i = s.i := rfl
@[simp] theorem State.advance_pc : (s.advance).pc = s.pc + 2 := rfl
@[simp] theorem State.advance_stack : (s.advance).stack = s.stack := rfl
@[simp] theorem State.advance_sp : (s.advance).sp = s.sp := rfl
@[simp] theorem State.advance_dt : (s.advance).dt = s.dt := rfl
@[simp] theorem State.advance_st : (s.advance).st = s.st := rfl
@[simp] theorem State.advance_fb : (s.advance).fb = s.fb := rfl
@[simp] theorem State.advance_redraw : (s.advance).redraw = s.redraw := rfl
@[simp] theorem State.advance_keys : (s.advance).keys = s.keys := rfl
@[simp] theorem State.advance_mem : (s.advance).mem = s.mem := rfl
@[simp] theorem State.advance_freeDraws : (s.advance).freeDraws = s.freeDraws := rfl
@[simp] theorem State.advance_schedule : (s.advance).schedule = s.schedule := rfl
@[simp] theorem State.advance_hostTail : (s.advance).hostTail = s.hostTail := rfl

/-! `memWrite`. -/

@[simp] theorem State.memWrite_v (a : Word) (b : Byte) : (s.memWrite a b).v = s.v := rfl
@[simp] theorem State.memWrite_i (a : Word) (b : Byte) : (s.memWrite a b).i = s.i := rfl
@[simp] theorem State.memWrite_pc (a : Word) (b : Byte) : (s.memWrite a b).pc = s.pc := rfl
@[simp] theorem State.memWrite_stack (a : Word) (b : Byte) : (s.memWrite a b).stack = s.stack := rfl
@[simp] theorem State.memWrite_sp (a : Word) (b : Byte) : (s.memWrite a b).sp = s.sp := rfl
@[simp] theorem State.memWrite_dt (a : Word) (b : Byte) : (s.memWrite a b).dt = s.dt := rfl
@[simp] theorem State.memWrite_st (a : Word) (b : Byte) : (s.memWrite a b).st = s.st := rfl
@[simp] theorem State.memWrite_fb (a : Word) (b : Byte) : (s.memWrite a b).fb = s.fb := rfl
@[simp] theorem State.memWrite_redraw (a : Word) (b : Byte) : (s.memWrite a b).redraw = s.redraw := rfl
@[simp] theorem State.memWrite_keys (a : Word) (b : Byte) : (s.memWrite a b).keys = s.keys := rfl
@[simp] theorem State.memWrite_mem (a : Word) (b : Byte) : (s.memWrite a b).mem = s.mem.write (ramIndex a) b := rfl
@[simp] theorem State.memWrite_freeDraws (a : Word) (b : Byte) : (s.memWrite a b).freeDraws = s.freeDraws := rfl
@[simp] theorem State.memWrite_schedule (a : Word) (b : Byte) : (s.memWrite a b).schedule = s.schedule := rfl
@[simp] theorem State.memWrite_hostTail (a : Word) (b : Byte) : (s.memWrite a b).hostTail = s.hostTail := rfl

/-! `loadBlock`. -/

@[simp] theorem State.loadBlock_i (x : RegIdx) (a : Word) : (s.loadBlock x a).i = s.i := rfl
@[simp] theorem State.loadBlock_pc (x : RegIdx) (a : Word) : (s.loadBlock x a).pc = s.pc := rfl
@[simp] theorem State.loadBlock_stack (x : RegIdx) (a : Word) : (s.loadBlock x a).stack = s.stack := rfl
@[simp] theorem State.loadBlock_sp (x : RegIdx) (a : Word) : (s.loadBlock x a).sp = s.sp := rfl
@[simp] theorem State.loadBlock_dt (x : RegIdx) (a : Word) : (s.loadBlock x a).dt = s.dt := rfl
@[simp] theorem State.loadBlock_st (x : RegIdx) (a : Word) : (s.loadBlock x a).st = s.st := rfl
@[simp] theorem State.loadBlock_fb (x : RegIdx) (a : Word) : (s.loadBlock x a).fb = s.fb := rfl
@[simp] theorem State.loadBlock_redraw (x : RegIdx) (a : Word) : (s.loadBlock x a).redraw = s.redraw := rfl
@[simp] theorem State.loadBlock_keys (x : RegIdx) (a : Word) : (s.loadBlock x a).keys = s.keys := rfl
@[simp] theorem State.loadBlock_mem (x : RegIdx) (a : Word) : (s.loadBlock x a).mem = s.mem := rfl
@[simp] theorem State.loadBlock_freeDraws (x : RegIdx) (a : Word) : (s.loadBlock x a).freeDraws = s.freeDraws := rfl
@[simp] theorem State.loadBlock_schedule (x : RegIdx) (a : Word) : (s.loadBlock x a).schedule = s.schedule := rfl
@[simp] theorem State.loadBlock_hostTail (x : RegIdx) (a : Word) : (s.loadBlock x a).hostTail = s.hostTail := rfl

/-! `push`. -/

@[simp] theorem State.push_v (a : Word) : (s.push a).v = s.v := rfl
@[simp] theorem State.push_i (a : Word) : (s.push a).i = s.i := rfl
@[simp] theorem State.push_pc (a : Word) : (s.push a).pc = s.pc := rfl
@[simp] theorem State.push_stack (a : Word) : (s.push a).stack = s.stack.set s.sp.toFin.val a := rfl
@[simp] theorem State.push_sp (a : Word) : (s.push a).sp = s.sp + 1 := rfl
@[simp] theorem State.push_dt (a : Word) : (s.push a).dt = s.dt := rfl
@[simp] theorem State.push_st (a : Word) : (s.push a).st = s.st := rfl
@[simp] theorem State.push_fb (a : Word) : (s.push a).fb = s.fb := rfl
@[simp] theorem State.push_redraw (a : Word) : (s.push a).redraw = s.redraw := rfl
@[simp] theorem State.push_keys (a : Word) : (s.push a).keys = s.keys := rfl
@[simp] theorem State.push_mem (a : Word) : (s.push a).mem = s.mem := rfl
@[simp] theorem State.push_freeDraws (a : Word) : (s.push a).freeDraws = s.freeDraws := rfl
@[simp] theorem State.push_schedule (a : Word) : (s.push a).schedule = s.schedule := rfl
@[simp] theorem State.push_hostTail (a : Word) : (s.push a).hostTail = s.hostTail := rfl

/-! `popPc`. -/

@[simp] theorem State.popPc_v : (s.popPc).v = s.v := rfl
@[simp] theorem State.popPc_i : (s.popPc).i = s.i := rfl
@[simp] theorem State.popPc_pc : (s.popPc).pc = s.readStack (s.sp - 1) := rfl
@[simp] theorem State.popPc_stack : (s.popPc).stack = s.stack := rfl
@[simp] theorem State.popPc_sp : (s.popPc).sp = s.sp - 1 := rfl
@[simp] theorem State.popPc_dt : (s.popPc).dt = s.dt := rfl
@[simp] theorem State.popPc_st : (s.popPc).st = s.st := rfl
@[simp] theorem State.popPc_fb : (s.popPc).fb = s.fb := rfl
@[simp] theorem State.popPc_redraw : (s.popPc).redraw = s.redraw := rfl
@[simp] theorem State.popPc_keys : (s.popPc).keys = s.keys := rfl
@[simp] theorem State.popPc_mem : (s.popPc).mem = s.mem := rfl
@[simp] theorem State.popPc_freeDraws : (s.popPc).freeDraws = s.freeDraws := rfl
@[simp] theorem State.popPc_schedule : (s.popPc).schedule = s.schedule := rfl
@[simp] theorem State.popPc_hostTail : (s.popPc).hostTail = s.hostTail := rfl

/-! `setDT`. -/

@[simp] theorem State.setDT_v (b : Byte) : (s.setDT b).v = s.v := rfl
@[simp] theorem State.setDT_i (b : Byte) : (s.setDT b).i = s.i := rfl
@[simp] theorem State.setDT_pc (b : Byte) : (s.setDT b).pc = s.pc := rfl
@[simp] theorem State.setDT_stack (b : Byte) : (s.setDT b).stack = s.stack := rfl
@[simp] theorem State.setDT_sp (b : Byte) : (s.setDT b).sp = s.sp := rfl
@[simp] theorem State.setDT_dt (b : Byte) : (s.setDT b).dt = b := rfl
@[simp] theorem State.setDT_st (b : Byte) : (s.setDT b).st = s.st := rfl
@[simp] theorem State.setDT_fb (b : Byte) : (s.setDT b).fb = s.fb := rfl
@[simp] theorem State.setDT_redraw (b : Byte) : (s.setDT b).redraw = s.redraw := rfl
@[simp] theorem State.setDT_keys (b : Byte) : (s.setDT b).keys = s.keys := rfl
@[simp] theorem State.setDT_mem (b : Byte) : (s.setDT b).mem = s.mem := rfl
@[simp] theorem State.setDT_freeDraws (b : Byte) : (s.setDT b).freeDraws = s.freeDraws := rfl
@[simp] theorem State.setDT_schedule (b : Byte) : (s.setDT b).schedule = s.schedule := rfl
@[simp] theorem State.setDT_hostTail (b : Byte) : (s.setDT b).hostTail = s.hostTail := rfl

/-! `setST`. -/

@[simp] theorem State.setST_v (b : Byte) : (s.setST b).v = s.v := rfl
@[simp] theorem State.setST_i (b : Byte) : (s.setST b).i = s.i := rfl
@[simp] theorem State.setST_pc (b : Byte) : (s.setST b).pc = s.pc := rfl
@[simp] theorem State.setST_stack (b : Byte) : (s.setST b).stack = s.stack := rfl
@[simp] theorem State.setST_sp (b : Byte) : (s.setST b).sp = s.sp := rfl
@[simp] theorem State.setST_dt (b : Byte) : (s.setST b).dt = s.dt := rfl
@[simp] theorem State.setST_st (b : Byte) : (s.setST b).st = b := rfl
@[simp] theorem State.setST_fb (b : Byte) : (s.setST b).fb = s.fb := rfl
@[simp] theorem State.setST_redraw (b : Byte) : (s.setST b).redraw = s.redraw := rfl
@[simp] theorem State.setST_keys (b : Byte) : (s.setST b).keys = s.keys := rfl
@[simp] theorem State.setST_mem (b : Byte) : (s.setST b).mem = s.mem := rfl
@[simp] theorem State.setST_freeDraws (b : Byte) : (s.setST b).freeDraws = s.freeDraws := rfl
@[simp] theorem State.setST_schedule (b : Byte) : (s.setST b).schedule = s.schedule := rfl
@[simp] theorem State.setST_hostTail (b : Byte) : (s.setST b).hostTail = s.hostTail := rfl

/-! `present`. -/

@[simp] theorem State.present_v (fb : Framebuffer) : (s.present fb).v = s.v := rfl
@[simp] theorem State.present_i (fb : Framebuffer) : (s.present fb).i = s.i := rfl
@[simp] theorem State.present_pc (fb : Framebuffer) : (s.present fb).pc = s.pc := rfl
@[simp] theorem State.present_stack (fb : Framebuffer) : (s.present fb).stack = s.stack := rfl
@[simp] theorem State.present_sp (fb : Framebuffer) : (s.present fb).sp = s.sp := rfl
@[simp] theorem State.present_dt (fb : Framebuffer) : (s.present fb).dt = s.dt := rfl
@[simp] theorem State.present_st (fb : Framebuffer) : (s.present fb).st = s.st := rfl
@[simp] theorem State.present_fb (fb : Framebuffer) : (s.present fb).fb = fb := rfl
@[simp] theorem State.present_redraw (fb : Framebuffer) : (s.present fb).redraw = true := rfl
@[simp] theorem State.present_keys (fb : Framebuffer) : (s.present fb).keys = s.keys := rfl
@[simp] theorem State.present_mem (fb : Framebuffer) : (s.present fb).mem = s.mem := rfl
@[simp] theorem State.present_freeDraws (fb : Framebuffer) : (s.present fb).freeDraws = s.freeDraws := rfl
@[simp] theorem State.present_schedule (fb : Framebuffer) : (s.present fb).schedule = s.schedule := rfl
@[simp] theorem State.present_hostTail (fb : Framebuffer) : (s.present fb).hostTail = s.hostTail := rfl

/-! `countDraw`. -/

@[simp] theorem State.countDraw_v : (s.countDraw).v = s.v := rfl
@[simp] theorem State.countDraw_i : (s.countDraw).i = s.i := rfl
@[simp] theorem State.countDraw_pc : (s.countDraw).pc = s.pc := rfl
@[simp] theorem State.countDraw_stack : (s.countDraw).stack = s.stack := rfl
@[simp] theorem State.countDraw_sp : (s.countDraw).sp = s.sp := rfl
@[simp] theorem State.countDraw_dt : (s.countDraw).dt = s.dt := rfl
@[simp] theorem State.countDraw_st : (s.countDraw).st = s.st := rfl
@[simp] theorem State.countDraw_fb : (s.countDraw).fb = s.fb := rfl
@[simp] theorem State.countDraw_redraw : (s.countDraw).redraw = s.redraw := rfl
@[simp] theorem State.countDraw_keys : (s.countDraw).keys = s.keys := rfl
@[simp] theorem State.countDraw_mem : (s.countDraw).mem = s.mem := rfl
@[simp] theorem State.countDraw_freeDraws : (s.countDraw).freeDraws = s.freeDraws + 1 := rfl
@[simp] theorem State.countDraw_schedule : (s.countDraw).schedule = s.schedule := rfl
@[simp] theorem State.countDraw_hostTail : (s.countDraw).hostTail = s.hostTail := rfl

/-! `tick`. -/

@[simp] theorem State.tick_v : (s.tick).v = s.v := rfl
@[simp] theorem State.tick_i : (s.tick).i = s.i := rfl
@[simp] theorem State.tick_pc : (s.tick).pc = s.pc := rfl
@[simp] theorem State.tick_stack : (s.tick).stack = s.stack := rfl
@[simp] theorem State.tick_sp : (s.tick).sp = s.sp := rfl
@[simp] theorem State.tick_dt : (s.tick).dt = countDown s.dt := rfl
@[simp] theorem State.tick_st : (s.tick).st = countDown s.st := rfl
@[simp] theorem State.tick_fb : (s.tick).fb = s.fb := rfl
@[simp] theorem State.tick_redraw : (s.tick).redraw = s.redraw := rfl
@[simp] theorem State.tick_keys : (s.tick).keys = s.keys := rfl
@[simp] theorem State.tick_mem : (s.tick).mem = s.mem := rfl
@[simp] theorem State.tick_freeDraws : (s.tick).freeDraws = s.freeDraws := rfl
@[simp] theorem State.tick_schedule : (s.tick).schedule = s.schedule := rfl
@[simp] theorem State.tick_hostTail : (s.tick).hostTail = s.hostTail := rfl

/-! `keyWrite`. -/

@[simp] theorem State.keyWrite_v (k : KeyIdx) (b : Bool) : (s.keyWrite k b).v = s.v := rfl
@[simp] theorem State.keyWrite_i (k : KeyIdx) (b : Bool) : (s.keyWrite k b).i = s.i := rfl
@[simp] theorem State.keyWrite_pc (k : KeyIdx) (b : Bool) : (s.keyWrite k b).pc = s.pc := rfl
@[simp] theorem State.keyWrite_stack (k : KeyIdx) (b : Bool) : (s.keyWrite k b).stack = s.stack := rfl
@[simp] theorem State.keyWrite_sp (k : KeyIdx) (b : Bool) : (s.keyWrite k b).sp = s.sp := rfl
@[simp] theorem State.keyWrite_dt (k : KeyIdx) (b : Bool) : (s.keyWrite k b).dt = s.dt := rfl
@[simp] theorem State.keyWrite_st (k : KeyIdx) (b : Bool) : (s.keyWrite k b).st = s.st := rfl
@[simp] theorem State.keyWrite_fb (k : KeyIdx) (b : Bool) : (s.keyWrite k b).fb = s.fb := rfl
@[simp] theorem State.keyWrite_redraw (k : KeyIdx) (b : Bool) : (s.keyWrite k b).redraw = s.redraw := rfl
@[simp] theorem State.keyWrite_keys (k : KeyIdx) (b : Bool) : (s.keyWrite k b).keys = s.keys.set k.val b := rfl
@[simp] theorem State.keyWrite_mem (k : KeyIdx) (b : Bool) : (s.keyWrite k b).mem = s.mem := rfl
@[simp] theorem State.keyWrite_freeDraws (k : KeyIdx) (b : Bool) : (s.keyWrite k b).freeDraws = s.freeDraws := rfl
@[simp] theorem State.keyWrite_schedule (k : KeyIdx) (b : Bool) : (s.keyWrite k b).schedule = s.schedule := rfl
@[simp] theorem State.keyWrite_hostTail (k : KeyIdx) (b : Bool) : (s.keyWrite k b).hostTail = s.hostTail := rfl

/-! `clearRedraw`. -/

@[simp] theorem State.clearRedraw_v : (s.clearRedraw).v = s.v := rfl
@[simp] theorem State.clearRedraw_i : (s.clearRedraw).i = s.i := rfl
@[simp] theorem State.clearRedraw_pc : (s.clearRedraw).pc = s.pc := rfl
@[simp] theorem State.clearRedraw_stack : (s.clearRedraw).stack = s.stack := rfl
@[simp] theorem State.clearRedraw_sp : (s.clearRedraw).sp = s.sp := rfl
@[simp] theorem State.clearRedraw_dt : (s.clearRedraw).dt = s.dt := rfl
@[simp] theorem State.clearRedraw_st : (s.clearRedraw).st = s.st := rfl
@[simp] theorem State.clearRedraw_fb : (s.clearRedraw).fb = s.fb := rfl
@[simp] theorem State.clearRedraw_redraw : (s.clearRedraw).redraw = false := rfl
@[simp] theorem State.clearRedraw_keys : (s.clearRedraw).keys = s.keys := rfl
@[simp] theorem State.clearRedraw_mem : (s.clearRedraw).mem = s.mem := rfl
@[simp] theorem State.clearRedraw_freeDraws : (s.clearRedraw).freeDraws = s.freeDraws := rfl
@[simp] theorem State.clearRedraw_schedule : (s.clearRedraw).schedule = s.schedule := rfl
@[simp] theorem State.clearRedraw_hostTail : (s.clearRedraw).hostTail = s.hostTail := rfl

/-! `skipIf`. -/

@[simp] theorem State.skipIf_v (c : Bool) : (s.skipIf c).v = s.v := by
  cases c <;> rfl
@[simp] theorem State.skipIf_i (c : Bool) : (s.skipIf c).i = s.i := by
  cases c <;> rfl
@[simp] theorem State.skipIf_pc (c : Bool) : (s.skipIf c).pc = if c then s.pc + 2 else s.pc := by
  cases c <;> rfl
@[simp] theorem State.skipIf_stack (c : Bool) : (s.skipIf c).stack = s.stack := by
  cases c <;> rfl
@[simp] theorem State.skipIf_sp (c : Bool) : (s.skipIf c).sp = s.sp := by
  cases c <;> rfl
@[simp] theorem State.skipIf_dt (c : Bool) : (s.skipIf c).dt = s.dt := by
  cases c <;> rfl
@[simp] theorem State.skipIf_st (c : Bool) : (s.skipIf c).st = s.st := by
  cases c <;> rfl
@[simp] theorem State.skipIf_fb (c : Bool) : (s.skipIf c).fb = s.fb := by
  cases c <;> rfl
@[simp] theorem State.skipIf_redraw (c : Bool) : (s.skipIf c).redraw = s.redraw := by
  cases c <;> rfl
@[simp] theorem State.skipIf_keys (c : Bool) : (s.skipIf c).keys = s.keys := by
  cases c <;> rfl
@[simp] theorem State.skipIf_mem (c : Bool) : (s.skipIf c).mem = s.mem := by
  cases c <;> rfl
@[simp] theorem State.skipIf_freeDraws (c : Bool) : (s.skipIf c).freeDraws = s.freeDraws := by
  cases c <;> rfl
@[simp] theorem State.skipIf_schedule (c : Bool) : (s.skipIf c).schedule = s.schedule := by
  cases c <;> rfl
@[simp] theorem State.skipIf_hostTail (c : Bool) : (s.skipIf c).hostTail = s.hostTail := by
  cases c <;> rfl

/-! `writeResultAndFlag`. -/

@[simp] theorem State.writeResultAndFlag_v (x : RegIdx) (r : Byte) (g : Bool) : (s.writeResultAndFlag x r g).v = (s.v.set x.val r).set 15 (flagByte g) := by
  rfl
@[simp] theorem State.writeResultAndFlag_i (x : RegIdx) (r : Byte) (g : Bool) : (s.writeResultAndFlag x r g).i = s.i := by
  rfl
@[simp] theorem State.writeResultAndFlag_pc (x : RegIdx) (r : Byte) (g : Bool) : (s.writeResultAndFlag x r g).pc = s.pc := by
  rfl
@[simp] theorem State.writeResultAndFlag_stack (x : RegIdx) (r : Byte) (g : Bool) : (s.writeResultAndFlag x r g).stack = s.stack := by
  rfl
@[simp] theorem State.writeResultAndFlag_sp (x : RegIdx) (r : Byte) (g : Bool) : (s.writeResultAndFlag x r g).sp = s.sp := by
  rfl
@[simp] theorem State.writeResultAndFlag_dt (x : RegIdx) (r : Byte) (g : Bool) : (s.writeResultAndFlag x r g).dt = s.dt := by
  rfl
@[simp] theorem State.writeResultAndFlag_st (x : RegIdx) (r : Byte) (g : Bool) : (s.writeResultAndFlag x r g).st = s.st := by
  rfl
@[simp] theorem State.writeResultAndFlag_fb (x : RegIdx) (r : Byte) (g : Bool) : (s.writeResultAndFlag x r g).fb = s.fb := by
  rfl
@[simp] theorem State.writeResultAndFlag_redraw (x : RegIdx) (r : Byte) (g : Bool) : (s.writeResultAndFlag x r g).redraw = s.redraw := by
  rfl
@[simp] theorem State.writeResultAndFlag_keys (x : RegIdx) (r : Byte) (g : Bool) : (s.writeResultAndFlag x r g).keys = s.keys := by
  rfl
@[simp] theorem State.writeResultAndFlag_mem (x : RegIdx) (r : Byte) (g : Bool) : (s.writeResultAndFlag x r g).mem = s.mem := by
  rfl
@[simp] theorem State.writeResultAndFlag_freeDraws (x : RegIdx) (r : Byte) (g : Bool) : (s.writeResultAndFlag x r g).freeDraws = s.freeDraws := by
  rfl
@[simp] theorem State.writeResultAndFlag_schedule (x : RegIdx) (r : Byte) (g : Bool) : (s.writeResultAndFlag x r g).schedule = s.schedule := by
  rfl
@[simp] theorem State.writeResultAndFlag_hostTail (x : RegIdx) (r : Byte) (g : Bool) : (s.writeResultAndFlag x r g).hostTail = s.hostTail := by
  rfl

/-! `memWriteBytes`. -/

@[simp] theorem State.memWriteBytes_v (a : Word) (bs : List Byte) : (s.memWriteBytes a bs).v = s.v := by
  induction bs generalizing s a with
  | nil => rfl
  | cons b bs ih => exact (ih (s.memWrite a b) (a + 1)).trans rfl
@[simp] theorem State.memWriteBytes_i (a : Word) (bs : List Byte) : (s.memWriteBytes a bs).i = s.i := by
  induction bs generalizing s a with
  | nil => rfl
  | cons b bs ih => exact (ih (s.memWrite a b) (a + 1)).trans rfl
@[simp] theorem State.memWriteBytes_pc (a : Word) (bs : List Byte) : (s.memWriteBytes a bs).pc = s.pc := by
  induction bs generalizing s a with
  | nil => rfl
  | cons b bs ih => exact (ih (s.memWrite a b) (a + 1)).trans rfl
@[simp] theorem State.memWriteBytes_stack (a : Word) (bs : List Byte) : (s.memWriteBytes a bs).stack = s.stack := by
  induction bs generalizing s a with
  | nil => rfl
  | cons b bs ih => exact (ih (s.memWrite a b) (a + 1)).trans rfl
@[simp] theorem State.memWriteBytes_sp (a : Word) (bs : List Byte) : (s.memWriteBytes a bs).sp = s.sp := by
  induction bs generalizing s a with
  | nil => rfl
  | cons b bs ih => exact (ih (s.memWrite a b) (a + 1)).trans rfl
@[simp] theorem State.memWriteBytes_dt (a : Word) (bs : List Byte) : (s.memWriteBytes a bs).dt = s.dt := by
  induction bs generalizing s a with
  | nil => rfl
  | cons b bs ih => exact (ih (s.memWrite a b) (a + 1)).trans rfl
@[simp] theorem State.memWriteBytes_st (a : Word) (bs : List Byte) : (s.memWriteBytes a bs).st = s.st := by
  induction bs generalizing s a with
  | nil => rfl
  | cons b bs ih => exact (ih (s.memWrite a b) (a + 1)).trans rfl
@[simp] theorem State.memWriteBytes_fb (a : Word) (bs : List Byte) : (s.memWriteBytes a bs).fb = s.fb := by
  induction bs generalizing s a with
  | nil => rfl
  | cons b bs ih => exact (ih (s.memWrite a b) (a + 1)).trans rfl
@[simp] theorem State.memWriteBytes_redraw (a : Word) (bs : List Byte) : (s.memWriteBytes a bs).redraw = s.redraw := by
  induction bs generalizing s a with
  | nil => rfl
  | cons b bs ih => exact (ih (s.memWrite a b) (a + 1)).trans rfl
@[simp] theorem State.memWriteBytes_keys (a : Word) (bs : List Byte) : (s.memWriteBytes a bs).keys = s.keys := by
  induction bs generalizing s a with
  | nil => rfl
  | cons b bs ih => exact (ih (s.memWrite a b) (a + 1)).trans rfl
@[simp] theorem State.memWriteBytes_freeDraws (a : Word) (bs : List Byte) : (s.memWriteBytes a bs).freeDraws = s.freeDraws := by
  induction bs generalizing s a with
  | nil => rfl
  | cons b bs ih => exact (ih (s.memWrite a b) (a + 1)).trans rfl
@[simp] theorem State.memWriteBytes_schedule (a : Word) (bs : List Byte) : (s.memWriteBytes a bs).schedule = s.schedule := by
  induction bs generalizing s a with
  | nil => rfl
  | cons b bs ih => exact (ih (s.memWrite a b) (a + 1)).trans rfl
@[simp] theorem State.memWriteBytes_hostTail (a : Word) (bs : List Byte) : (s.memWriteBytes a bs).hostTail = s.hostTail := by
  induction bs generalizing s a with
  | nil => rfl
  | cons b bs ih => exact (ih (s.memWrite a b) (a + 1)).trans rfl

/-- Storing bytes changes nothing but RAM. -/
theorem State.memWriteBytes_frame (a : Word) (bs : List Byte) :
    s.memWriteBytes a bs = { s with mem := (s.memWriteBytes a bs).mem } := by
  induction bs generalizing s a with
  | nil => rfl
  | cons b bs ih => exact ih (s.memWrite a b) (a + 1)

end Sys2Proof.Machine
end

