-- ==== Sys2Proof/Laws/Memory.lean ====
section
/-! SUPPORT. What reads and writes of RAM do, and that every write keeps the canonical form. -/

namespace Sys2Proof.Machine

theorem ramIndex_lt (a : Word) : ramIndex a < Config.memSize := Nat.mod_lt _ (by decide)

/-! Read after write. -/

theorem Memory.read_filter_same (m : Memory) (a : Nat) :
    Memory.read (m.filter fun c => c.1 != a) a = Memory.background a := by
  induction m with
  | nil => rfl
  | cons c m ih =>
    by_cases h : c.1 = a
    · simp [h, ih]
    · simp [h, Memory.read, Ne.symm h, ih]

theorem Memory.read_filter_other (m : Memory) {a b : Nat} (hab : b ≠ a) :
    Memory.read (m.filter fun c => c.1 != a) b = m.read b := by
  induction m with
  | nil => rfl
  | cons c m ih =>
    by_cases h : c.1 = a
    · simp [h, Memory.read, hab, ih]
    · simp [h, Memory.read, ih]

theorem Memory.read_insertCell_same (m : Memory) (a : Nat) (v : Byte) (h : ∀ c ∈ m, c.1 ≠ a) :
    Memory.read (Memory.insertCell a v m) a = v := by
  induction m with
  | nil => simp [Memory.insertCell, Memory.read]
  | cons c m ih =>
    have hc : a ≠ c.1 := (h c (by simp)).symm
    have hm := ih fun d hd => h d (by simp [hd])
    unfold Memory.insertCell
    split <;> simp [Memory.read, hc, hm]

theorem Memory.read_insertCell_other (m : Memory) {a b : Nat} (v : Byte) (hab : b ≠ a) :
    Memory.read (Memory.insertCell a v m) b = m.read b := by
  induction m with
  | nil => simp [Memory.insertCell, Memory.read, hab]
  | cons c m ih =>
    unfold Memory.insertCell
    split <;> simp [Memory.read, hab, ih]

/-- A read after a write at the same index gives the byte written. -/
theorem Memory.read_write_same (m : Memory) (a : Nat) (v : Byte) : (Memory.write m a v).read a = v := by
  unfold Memory.write
  split
  · next h => rw [Memory.read_filter_same, h]
  · exact Memory.read_insertCell_same _ _ _ fun c hc => by simpa using (List.mem_filter.1 hc).2

/-- A write leaves every other index as it was. -/
theorem Memory.read_write_other (m : Memory) {a b : Nat} (v : Byte) (hab : b ≠ a) :
    (Memory.write m a v).read b = m.read b := by
  unfold Memory.write
  split
  · exact Memory.read_filter_other m hab
  · rw [Memory.read_insertCell_other _ v hab, Memory.read_filter_other m hab]

theorem Memory.read_write (m : Memory) (a b : Nat) (v : Byte) :
    (Memory.write m a v).read b = if b = a then v else m.read b := by
  split
  · next h => rw [h, Memory.read_write_same]
  · next h => exact Memory.read_write_other m v h

/-! The canonical form. -/

theorem Memory.mem_insertCell {m : Memory} {a : Nat} {v : Byte} {c : Host.Cell}
    (h : c ∈ Memory.insertCell a v m) : c = (a, v) ∨ c ∈ m := by
  induction m with
  | nil => simpa [Memory.insertCell] using h
  | cons d m ih =>
    unfold Memory.insertCell at h
    split at h
    · simpa using h
    · rcases List.mem_cons.1 h with h | h
      · exact .inr (by simp [h])
      · exact (ih h).imp id fun h => by simp [h]

theorem Memory.pairwise_insertCell {m : Memory} {a : Nat} (v : Byte) (hne : ∀ c ∈ m, c.1 ≠ a)
    (h : m.Pairwise fun c d => c.1 < d.1) : (Memory.insertCell a v m).Pairwise fun c d => c.1 < d.1 := by
  induction m with
  | nil => simp [Memory.insertCell]
  | cons d m ih =>
    have hd : d.1 ≠ a := hne d (by simp)
    obtain ⟨h1, h2⟩ := List.pairwise_cons.1 h
    unfold Memory.insertCell
    split
    · next hlt =>
      refine List.pairwise_cons.2 ⟨fun e he => ?_, h⟩
      rcases List.mem_cons.1 he with rfl | he
      · exact hlt
      · exact hlt.trans (h1 e he)
    · refine List.pairwise_cons.2 ⟨fun e he => ?_, ih (fun c hc => hne c (by simp [hc])) h2⟩
      rcases Memory.mem_insertCell he with rfl | he
      · exact lt_of_le_of_ne (by omega) hd
      · exact h1 e he

/-- Every write within RAM keeps the canonical form. -/
theorem Memory.wf_write {m : Memory} (h : m.wf) {a : Nat} (ha : a < Config.memSize) (v : Byte) :
    (Memory.write m a v).wf := by
  obtain ⟨hp, hc⟩ := h
  have hp' := hp.filter fun c => c.1 != a
  unfold Memory.write
  split
  · exact ⟨hp', fun c hm => hc c (List.mem_filter.1 hm).1⟩
  · next hv =>
    refine ⟨Memory.pairwise_insertCell v (fun c hm => by simpa using (List.mem_filter.1 hm).2) hp', fun c hm => ?_⟩
    rcases Memory.mem_insertCell hm with rfl | hm
    · exact ⟨ha, hv⟩
    · exact hc c (List.mem_filter.1 hm).1

theorem Memory.wf_nil : Memory.wf [] := ⟨List.Pairwise.nil, by simp⟩

theorem State.wf_memWrite {s : State} (h : s.mem.wf) (a : Word) (b : Byte) : (s.memWrite a b).mem.wf :=
  Memory.wf_write h (ramIndex_lt a) b

/-- Storing any bytes anywhere keeps the canonical form. -/
theorem State.wf_memWriteBytes {s : State} (h : s.mem.wf) (a : Word) (bs : List Byte) :
    (s.memWriteBytes a bs).mem.wf := by
  induction bs generalizing s a with
  | nil => exact h
  | cons b bs ih => exact ih (s.wf_memWrite h a b) (a + 1)

/-! Single bytes through 16-bit addresses. -/

theorem State.memRead_memWrite (s : State) (a b : Word) (v : Byte) :
    (s.memWrite a v).memRead b = if ramIndex b = ramIndex a then v else s.memRead b :=
  Memory.read_write s.mem (ramIndex a) (ramIndex b) v

/-- Reading RAM depends on RAM alone. -/
theorem State.memRead_congr {s t : State} (h : t.mem = s.mem) (a : Word) : t.memRead a = s.memRead a := by
  simp [State.memRead, h]

theorem State.memReadBytes_congr {s t : State} (h : t.mem = s.mem) (a : Word) (n : Nat) :
    t.memReadBytes a n = s.memReadBytes a n := by
  induction n generalizing a with
  | zero => rfl
  | succ n ih => simp [State.memReadBytes, State.memRead_congr h, ih]

@[simp] theorem State.memReadBytes_length (s : State) (a : Word) (n : Nat) : (s.memReadBytes a n).length = n := by
  induction n generalizing a with
  | zero => rfl
  | succ n ih => simp [State.memReadBytes, ih]

theorem ofNat_succ_add (a : Word) (j : Nat) : a + BitVec.ofNat 16 (j + 1) = a + 1 + BitVec.ofNat 16 j := by
  rw [BitVec.add_assoc, Nat.add_comm j 1, BitVec.ofNat_add]; rfl

/-- The j-th byte read is the byte at `a + j`. -/
theorem State.memReadBytes_getElem (s : State) (a : Word) (n j : Nat) (h : j < (s.memReadBytes a n).length) :
    (s.memReadBytes a n)[j] = s.memRead (a + BitVec.ofNat 16 j) := by
  induction n generalizing a j with
  | zero => simp at h
  | succ n ih =>
    cases j with
    | zero => simp [State.memReadBytes]
    | succ j =>
      rw [ofNat_succ_add]
      exact ih (a + 1) j (by simpa [State.memReadBytes] using h)

/-- Storing bytes leaves every byte outside them as it was. -/
theorem State.memRead_memWriteBytes_other (s : State) (a b : Word) (bs : List Byte)
    (h : ∀ j < bs.length, ramIndex b ≠ ramIndex (a + BitVec.ofNat 16 j)) :
    (s.memWriteBytes a bs).memRead b = s.memRead b := by
  induction bs generalizing s a with
  | nil => rfl
  | cons c bs ih =>
    have h0 : ramIndex b ≠ ramIndex a := by simpa using h 0 (by simp)
    refine (ih (s.memWrite a c) (a + 1) fun j hj => ?_).trans ?_
    · rw [← ofNat_succ_add]; exact h (j + 1) (by simpa using hj)
    · rw [State.memRead_memWrite, if_neg h0]

/-- Two offsets below 4096 from one address reach different bytes. -/
theorem ramIndex_add_ne (a : Word) {j k : Nat} (hj : j < 4096) (hk : k < 4096) (hjk : j ≠ k) :
    ramIndex (a + BitVec.ofNat 16 j) ≠ ramIndex (a + BitVec.ofNat 16 k) := by
  simp only [ramIndex, Config.memSize, BitVec.toNat_add, BitVec.toNat_ofNat]
  omega

/-- Storing at most 4096 bytes puts the j-th of them at `a + j`. -/
theorem State.memRead_memWriteBytes_same (s : State) (a : Word) (bs : List Byte) (hl : bs.length ≤ 4096)
    (j : Nat) (h : j < bs.length) :
    (s.memWriteBytes a bs).memRead (a + BitVec.ofNat 16 j) = bs[j] := by
  induction bs generalizing s a j with
  | nil => simp at h
  | cons c bs ih =>
    simp only [List.length_cons] at hl h
    cases j with
    | zero =>
      refine (State.memRead_memWriteBytes_other (s.memWrite a c) (a + 1) _ bs fun k hk => ?_).trans ?_
      · rw [← ofNat_succ_add]
        exact ramIndex_add_ne a (by omega) (by omega) (by omega)
      · rw [State.memRead_memWrite]; simp
    | succ j =>
      rw [ofNat_succ_add]
      exact ih (s.memWrite a c) (a + 1) (by omega) j (by omega)

/-! The word placed for the next fetch. -/

/-- Placing a word puts its high byte at `pc`. -/
theorem State.memRead_placeWord_high (s : State) (w : Word) : (s.placeWord w).memRead s.pc = w.extractLsb' 8 8 := by
  have h := State.memRead_memWriteBytes_same s s.pc (wordBytes w) (by simp [wordBytes]) 0 (by simp [wordBytes])
  rwa [show s.pc + BitVec.ofNat 16 0 = s.pc from BitVec.add_zero s.pc] at h

/-- Placing a word puts its low byte at `pc + 1`. -/
theorem State.memRead_placeWord_low (s : State) (w : Word) :
    (s.placeWord w).memRead (s.pc + 1) = w.extractLsb' 0 8 :=
  State.memRead_memWriteBytes_same s s.pc (wordBytes w) (by simp [wordBytes]) 1 (by simp [wordBytes])

/-- Placing a word leaves every other byte as it was. -/
theorem State.memRead_placeWord_other (s : State) (w a : Word) (h0 : ramIndex a ≠ ramIndex s.pc)
    (h1 : ramIndex a ≠ ramIndex (s.pc + 1)) : (s.placeWord w).memRead a = s.memRead a := by
  refine State.memRead_memWriteBytes_other s s.pc a (wordBytes w) fun j hj => ?_
  match j, hj with
  | 0, _ => rwa [show s.pc + BitVec.ofNat 16 0 = s.pc from BitVec.add_zero s.pc]
  | 1, _ => exact h1

end Sys2Proof.Machine
end

