-- ==== Sys2Proof/Laws/Registers.lean ====
section
/-! SUPPORT. What the operations on registers, stack and keys do, read back through their accessors. -/

namespace Sys2Proof.Machine

/-! General registers. -/

theorem State.readV_writeV (s : State) (x y : RegIdx) (b : Byte) :
    (s.writeV x b).readV y = if y = x then b else s.readV y := by
  unfold State.readV State.writeV
  rw [Vector.getElem_set]
  simp only [eq_comm (a := x.val), Fin.val_inj]

@[simp] theorem State.readV_writeV_same (s : State) (x : RegIdx) (b : Byte) : (s.writeV x b).readV x = b := by
  simp [State.readV_writeV]

theorem State.readV_writeV_other (s : State) {x y : RegIdx} (b : Byte) (h : y ≠ x) :
    (s.writeV x b).readV y = s.readV y := by
  simp [State.readV_writeV, h]

/-- Reading a register depends on the register file alone. -/
theorem State.readV_congr {s t : State} (h : t.v = s.v) (x : RegIdx) : t.readV x = s.readV x := by
  simp [State.readV, h]

theorem State.writeResultAndFlag_eq (s : State) (x : RegIdx) (r : Byte) (g : Bool) :
    s.writeResultAndFlag x r g = (s.writeV x r).writeV flagReg (flagByte g) := rfl

/-- VF ends as the flag, whatever the destination. -/
theorem State.readV_writeResultAndFlag_flag (s : State) (x : RegIdx) (r : Byte) (g : Bool) :
    (s.writeResultAndFlag x r g).readV flagReg = flagByte g := by
  simp [State.writeResultAndFlag_eq]

/-- A destination other than VF ends as the result. -/
theorem State.readV_writeResultAndFlag_dest (s : State) {x : RegIdx} (hx : x ≠ flagReg) (r : Byte) (g : Bool) :
    (s.writeResultAndFlag x r g).readV x = r := by
  simp [State.writeResultAndFlag_eq, State.readV_writeV, hx]

theorem State.readV_writeResultAndFlag_other (s : State) {x y : RegIdx} (hy : y ≠ x) (hf : y ≠ flagReg)
    (r : Byte) (g : Bool) : (s.writeResultAndFlag x r g).readV y = s.readV y := by
  simp [State.writeResultAndFlag_eq, State.readV_writeV, hy, hf]

theorem flagByte_eq (b : Bool) : flagByte b = if b then 1 else 0 := rfl

theorem flagByte_eq_zero_or_one (b : Bool) : flagByte b = 0 ∨ flagByte b = 1 := by
  cases b <;> decide

theorem lowNibble_val (a : Byte) : (lowNibble a).val = a.toNat % 16 := by
  simp [lowNibble]

theorem zextAddr_toNat (nnn : BitVec 12) : (zextAddr nnn).toNat = nnn.toNat := by
  have := nnn.isLt
  simp [zextAddr]; omega

theorem zextByte_toNat (a : Byte) : (zextByte a).toNat = a.toNat := by
  have := a.isLt
  simp [zextByte]; omega

theorem countDown_toNat (t : Byte) : (countDown t).toNat = t.toNat - 1 := by
  revert t
  decide

/-- A skip changes `pc` and nothing else. -/
theorem State.skipIf_eq (s : State) (c : Bool) : s.skipIf c = { s with pc := if c then s.pc + 2 else s.pc } := by
  cases c <;> rfl

@[simp] theorem shiftOperand_eq (x y : RegIdx) : shiftOperand x y = x := rfl

theorem spriteBit_eq (b : Byte) (c : Nat) : spriteBit b c = b.getLsbD (7 - c) := rfl

/-! Register blocks. -/

@[simp] theorem State.readBlock_length (s : State) (x : RegIdx) : (s.readBlock x).length = x.val + 1 := by
  simp [State.readBlock]

theorem State.readBlock_getElem (s : State) (x : RegIdx) (j : Nat) (h : j < (s.readBlock x).length) :
    (s.readBlock x)[j] = s.readV ⟨j, by have := x.isLt; simp at h; omega⟩ := by
  simp [State.readBlock, State.readV]

theorem State.readV_loadBlock (s : State) (x r : RegIdx) (a : Word) :
    (s.loadBlock x a).readV r = if r ≤ x then s.memRead (a + BitVec.ofNat 16 r.val) else s.readV r := by
  simp [State.readV, State.loadBlock]

/-! The call stack. -/

theorem State.readStack_push (s : State) (a : Word) (i : BitVec 4) :
    (s.push a).readStack i = if i = s.sp then a else s.readStack i := by
  unfold State.readStack State.push
  rw [Vector.getElem_set]
  simp only [eq_comm (a := (BitVec.toFin s.sp).val), Fin.val_inj, BitVec.toFin_inj]

/-! The keys. -/

theorem State.keyDown_keyWrite (s : State) (k j : KeyIdx) (b : Bool) :
    (s.keyWrite k b).keyDown j = if j = k then b else s.keyDown j := by
  unfold State.keyDown State.keyWrite
  rw [Vector.getElem_set]
  simp only [eq_comm (a := k.val), Fin.val_inj]

theorem State.mem_pressedKeys (s : State) (k : KeyIdx) : k ∈ s.pressedKeys ↔ s.keyDown k = true := by
  simp [State.pressedKeys]

/-- Whatever the free number, the key picked is one of the pressed keys. -/
theorem pickKey_mem (k : KeyIdx) (ks : List KeyIdx) (d : Nat) : pickKey k ks d ∈ k :: ks := by
  unfold pickKey
  split
  · simp
  · next a l =>
    have h : d % ((a :: l).length + 1) < (k :: a :: l).length := Nat.mod_lt _ (by simp)
    rw [List.getD_eq_getElem _ _ h]
    exact List.getElem_mem h

/-- Every pressed key is picked by some free number. -/
theorem pickKey_surjective (k : KeyIdx) (ks : List KeyIdx) {j : KeyIdx} (h : j ∈ k :: ks) :
    ∃ d, pickKey k ks d = j := by
  obtain ⟨n, hn, rfl⟩ := List.getElem_of_mem h
  refine ⟨n, ?_⟩
  unfold pickKey
  split
  · have : n = 0 := by simpa using hn
    subst this; rfl
  · next a l =>
    have hm : n % ((a :: l).length + 1) = n := Nat.mod_eq_of_lt hn
    rw [hm, List.getD_eq_getElem _ _ hn]

end Sys2Proof.Machine
end

