-- ==== Sys2Proof/Laws/Framebuffer.lean ====
section
/-! SUPPORT. Pixels after the framebuffer operations. -/

namespace Sys2Proof.Machine

@[simp] theorem Framebuffer.pixel_blank (px : Fin 64) (py : Fin 32) : Framebuffer.blank.pixel px py = false := by
  simp [Framebuffer.pixel, Framebuffer.blank]

/-- A flip turns its own pixel over and leaves every other pixel as it was. -/
theorem Framebuffer.pixel_flip (fb : Framebuffer) (px qx : Fin 64) (py qy : Fin 32) :
    (fb.flip px py).pixel qx qy = if qx = px ∧ qy = py then !fb.pixel px py else fb.pixel qx qy := by
  unfold Framebuffer.flip Framebuffer.pixel
  by_cases hx : px = qx
  · subst hx
    rw [Vector.getElem_set_self, Vector.getElem_set]
    by_cases hy : py = qy <;> simp [hy, eq_comm, Fin.val_inj]
  · rw [Vector.getElem_set_ne _ _ (by simpa [Fin.val_inj] using hx)]
    simp [Ne.symm hx]

/-- Two framebuffers with the same pixels are the same. -/
theorem Framebuffer.ext_pixel {fb gb : Framebuffer} (h : ∀ px py, fb.pixel px py = gb.pixel px py) : fb = gb := by
  apply Vector.ext
  intro i hi
  apply Vector.ext
  intro j hj
  exact h ⟨i, hi⟩ ⟨j, hj⟩

theorem plot_pixel (px qx : Fin 64) (py qy : Fin 32) (d : Framebuffer × Bool) :
    (plot px py d).1.pixel qx qy = if qx = px ∧ qy = py then !d.1.pixel px py else d.1.pixel qx qy :=
  Framebuffer.pixel_flip d.1 px qx py qy

theorem plot_hit (px : Fin 64) (py : Fin 32) (d : Framebuffer × Bool) :
    (plot px py d).2 = (d.2 || d.1.pixel px py) := rfl

theorem wrapX_val (v : Nat) : (wrapX v).val = v % 64 := rfl

theorem wrapY_val (v : Nat) : (wrapY v).val = v % 32 := rfl

/-! Sprites: which pixels a row and a whole sprite light, and the collision flag (42_display_input R97). -/

/-- The pixel's column distance from a start column, modulo 64. -/
def columnOffset (x0 : Nat) (px : Fin 64) : Nat := (px.val + 64 - x0 % 64) % 64

/-- The pixel's row distance from a start row, modulo 32. -/
def rowOffset (y0 : Nat) (py : Fin 32) : Nat := (py.val + 32 - y0 % 32) % 32

/-- Does a sprite byte drawn from column `x0` light this column? -/
def rowLights (b : Byte) (x0 : Nat) (px : Fin 64) : Bool :=
  decide (columnOffset x0 px < 8) && b.getLsbD (7 - columnOffset x0 px)

/-- Does a sprite drawn from column `x0` and row `y0` light this pixel? -/
def spriteBytesLight (bs : List Byte) (x0 y0 : Nat) (px : Fin 64) (py : Fin 32) : Bool :=
  (bs[rowOffset y0 py]?.map (rowLights · x0 px)).getD false

theorem columnOffset_eq_iff (x0 : Nat) {c : Nat} (hc : c < 64) (px : Fin 64) :
    columnOffset x0 px = c ↔ px = wrapX (x0 + c) := by
  have := px.isLt
  rw [Fin.ext_iff, wrapX_val, columnOffset]; omega

theorem drawColumns_spec (l : List Nat) (hl : ∀ c ∈ l, c < 8) (hn : l.Nodup) (x0 y : Nat) (b : Byte)
    (d : Framebuffer × Bool) :
    let e := l.foldl (fun d c => if spriteBit b c then plot (wrapX (x0 + c)) (wrapY y) d else d) d
    (∀ px py, e.1.pixel px py = (d.1.pixel px py ^^
      (decide (py = wrapY y) && decide (columnOffset x0 px ∈ l) && b.getLsbD (7 - columnOffset x0 px)))) ∧
    (e.2 = true ↔ d.2 = true ∨ ∃ px, columnOffset x0 px ∈ l ∧ b.getLsbD (7 - columnOffset x0 px) = true ∧
      d.1.pixel px (wrapY y) = true) := by
  induction l generalizing d with
  | nil => simp
  | cons c l ih =>
    have hc : c < 8 := hl c (by simp)
    have hnc : c ∉ l := (List.nodup_cons.1 hn).1
    have key : ∀ px : Fin 64, columnOffset x0 px = c ↔ px = wrapX (x0 + c) :=
      columnOffset_eq_iff x0 (by omega)
    have ih' := fun d => ih (fun c hc => hl c (by simp [hc])) (List.nodup_cons.1 hn).2 d
    simp only [List.foldl_cons]
    by_cases hb : spriteBit b c = true
    · rw [if_pos hb]
      have hb' : b.getLsbD (7 - c) = true := hb
      obtain ⟨i1, i2⟩ := ih' (plot (wrapX (x0 + c)) (wrapY y) d)
      refine ⟨fun px py => ?_, ?_⟩
      · rw [i1, plot_pixel]
        by_cases hx : px = wrapX (x0 + c)
        · have hk := (key px).2 hx
          rw [hk]
          by_cases hy : py = wrapY y <;> simp [hx, hy, hnc, hb']
        · have hk : columnOffset x0 px ≠ c := fun h => hx ((key px).1 h)
          simp [hx, hk]
      · rw [i2, plot_hit]
        simp only [plot_pixel, Bool.or_eq_true, List.mem_cons]
        constructor
        · rintro ((h | h) | ⟨px, h1, h2, h3⟩)
          · exact .inl h
          · exact .inr ⟨_, .inl ((key _).2 rfl), by rw [(key _).2 rfl]; exact hb', h⟩
          · refine .inr ⟨px, .inr h1, h2, ?_⟩
            rw [if_neg] at h3
            · exact h3
            · rintro ⟨rfl, _⟩; rw [(key _).2 rfl] at h1; exact hnc h1
        · rintro (h | ⟨px, h1 | h1, h2, h3⟩)
          · exact .inl (.inl h)
          · rw [(key px).1 h1] at h3; exact .inl (.inr h3)
          · refine .inr ⟨px, h1, h2, ?_⟩
            rw [if_neg]
            · exact h3
            · rintro ⟨rfl, _⟩; rw [(key _).2 rfl] at h1; exact hnc h1
    · rw [if_neg hb]
      have hb' : b.getLsbD (7 - c) = false := by simpa [spriteBit_eq] using hb
      obtain ⟨i1, i2⟩ := ih' d
      refine ⟨fun px py => ?_, ?_⟩
      · rw [i1]
        by_cases hk : columnOffset x0 px = c
        · rw [hk]; simp [hnc, hb']
        · simp [hk]
      · rw [i2]
        refine or_congr Iff.rfl ⟨fun ⟨px, h1, h2, h3⟩ => ⟨px, by simp [h1], h2, h3⟩,
          fun ⟨px, h1, h2, h3⟩ => ⟨px, ?_, h2, h3⟩⟩
        rcases List.mem_cons.1 h1 with h1 | h1
        · rw [h1] at h2; rw [h2] at hb'; cases hb'
        · exact h1

/-- One sprite row flips exactly the pixels it lights, and hits when one of them was on. -/
theorem drawRow_spec (x0 y : Nat) (b : Byte) (d : Framebuffer × Bool) :
    (∀ px py, (drawRow x0 y b d).1.pixel px py =
      (d.1.pixel px py ^^ (decide (py = wrapY y) && rowLights b x0 px))) ∧
    ((drawRow x0 y b d).2 = true ↔
      d.2 = true ∨ ∃ px, rowLights b x0 px = true ∧ d.1.pixel px (wrapY y) = true) := by
  have h := drawColumns_spec (List.range 8) (fun c h => by simpa using h) List.nodup_range x0 y b d
  simp only [List.mem_range] at h
  refine ⟨fun px py => (h.1 px py).trans ?_, h.2.trans ?_⟩
  · simp [rowLights, Bool.and_assoc]
  · simp [rowLights, and_assoc]

/-- A sprite of at most 16 rows flips exactly the pixels it lights, and hits when one of them was on. -/
theorem drawRows_spec (bs : List Byte) (hl : bs.length ≤ 16) (x0 y : Nat) (d : Framebuffer × Bool) :
    (∀ px py, (drawRows x0 y bs d).1.pixel px py = (d.1.pixel px py ^^ spriteBytesLight bs x0 y px py)) ∧
    ((drawRows x0 y bs d).2 = true ↔
      d.2 = true ∨ ∃ px py, spriteBytesLight bs x0 y px py = true ∧ d.1.pixel px py = true) := by
  unfold spriteBytesLight
  induction bs generalizing y d with
  | nil => simp [drawRows]
  | cons b bs ih =>
    simp only [List.length_cons] at hl
    obtain ⟨i1, i2⟩ := ih (by omega) (y + 1) (drawRow x0 y b d)
    obtain ⟨r1, r2⟩ := drawRow_spec x0 y b d
    have k0 : ∀ py : Fin 32, py = wrapY y → rowOffset y py = 0 := by
      intro py h; have := congrArg Fin.val h; rw [wrapY_val] at this; unfold rowOffset; omega
    have k1 : ∀ py : Fin 32, py = wrapY y → bs[rowOffset (y + 1) py]? = none := by
      intro py h; have := congrArg Fin.val h; rw [wrapY_val] at this
      exact List.getElem?_eq_none (by unfold rowOffset; omega)
    have k2 : ∀ py : Fin 32, py ≠ wrapY y → (b :: bs)[rowOffset y py]? = bs[rowOffset (y + 1) py]? := by
      intro py h
      have h' : py.val ≠ y % 32 := fun e => h (Fin.ext (by rw [wrapY_val]; exact e))
      have := py.isLt
      have e : rowOffset y py = rowOffset (y + 1) py + 1 := by unfold rowOffset; omega
      rw [e, List.getElem?_cons_succ]
    refine ⟨fun px py => ?_, ?_⟩
    · show (drawRows x0 (y+1) bs (drawRow x0 y b d)).1.pixel px py = _
      rw [i1, r1]
      by_cases hy : py = wrapY y
      · rw [k1 py hy, k0 py hy]; simp [hy]
      · rw [k2 py hy]; simp [hy]
    · show (drawRows x0 (y+1) bs (drawRow x0 y b d)).2 = true ↔ _
      rw [i2, r2]
      constructor
      · rintro ((h | ⟨px, h1, h2⟩) | ⟨px, py, h1, h2⟩)
        · exact .inl h
        · exact .inr ⟨px, wrapY y, by rw [k0 _ rfl]; simpa using h1, h2⟩
        · by_cases hy : py = wrapY y
          · rw [k1 py hy] at h1; simp at h1
          · refine .inr ⟨px, py, by rw [k2 py hy]; exact h1, ?_⟩
            rw [r1] at h2; simpa [hy] using h2
      · rintro (h | ⟨px, py, h1, h2⟩)
        · exact .inl (.inl h)
        · by_cases hy : py = wrapY y
          · subst hy; rw [k0 _ rfl] at h1; exact .inl (.inr ⟨px, by simpa using h1, h2⟩)
          · refine .inr ⟨px, py, by rw [k2 py hy] at h1; exact h1, ?_⟩
            rw [r1]; simpa [hy] using h2


end Sys2Proof.Machine
end

