-- ==== Sys2Proof/Laws/HostEvents.lean ====
section
/-! SUPPORT. What the host's events and the host's turn keep. -/

namespace Sys2Proof.Machine

theorem State.hostEvents_eq_foldl (s : State) (es : List HostEvent) : s.hostEvents es = es.foldl State.hostEvent s := by
  induction es generalizing s with
  | nil => rfl
  | cons e es ih => exact ih (s.hostEvent e)

theorem State.hostTurn_of_cons (s : State) {turn : List HostEvent} {rest : List (List HostEvent)}
    (h : s.schedule = turn :: rest) : s.hostTurn = { s with schedule := rest }.hostEvents turn := by
  simp [State.hostTurn, h]

theorem State.hostTurn_of_repeats (s : State) {turn : List HostEvent} (h : s.schedule = [])
    (ht : s.hostTail = .repeats turn) : s.hostTurn = s.hostEvents turn := by
  simp [State.hostTurn, h, ht]

theorem State.hostTurn_of_free (s : State) (h : s.schedule = []) (ht : s.hostTail = .free) :
    s.hostTurn = s.countDraw.hostEvents (Config.hostTurn s.freeDraws) := by
  simp [State.hostTurn, h, ht]

/-- A silent host's turn does nothing. -/
theorem State.hostTurn_of_silent (s : State) (h : s.schedule = []) (ht : s.hostTail = .repeats []) :
    s.hostTurn = s :=
  s.hostTurn_of_repeats h ht

/-- No host event touches the model's own fields: what the host does next and the count of free values. -/
theorem State.hostEvent_own (s : State) (e : HostEvent) : (s.hostEvent e).schedule = s.schedule ∧
    (s.hostEvent e).hostTail = s.hostTail ∧ (s.hostEvent e).freeDraws = s.freeDraws := by
  cases e
  case load image =>
    show (s.load image).schedule = _ ∧ (s.load image).hostTail = _ ∧ (s.load image).freeDraws = _
    unfold State.load
    split <;> simp
  all_goals exact ⟨rfl, rfl, rfl⟩

theorem State.hostEvents_own (s : State) (es : List HostEvent) : (s.hostEvents es).schedule = s.schedule ∧
    (s.hostEvents es).hostTail = s.hostTail ∧ (s.hostEvents es).freeDraws = s.freeDraws := by
  induction es generalizing s with
  | nil => exact ⟨rfl, rfl, rfl⟩
  | cons e es ih =>
    obtain ⟨h1, h2, h3⟩ := s.hostEvent_own e
    obtain ⟨k1, k2, k3⟩ := ih (s.hostEvent e)
    exact ⟨k1.trans h1, k2.trans h2, k3.trans h3⟩

theorem State.memWriteBytes_withSchedule (s : State) (sch : List (List HostEvent)) (a : Word) (bs : List Byte) :
    { s with schedule := sch }.memWriteBytes a bs = { s.memWriteBytes a bs with schedule := sch } := by
  induction bs generalizing s a with
  | nil => rfl
  | cons b bs ih => exact ih (s.memWrite a b) (a + 1)

/-- Host events do not depend on what the host does next, and leave it. -/
theorem State.hostEvents_withSchedule (s : State) (sch : List (List HostEvent)) (es : List HostEvent) :
    { s with schedule := sch }.hostEvents es = { s.hostEvents es with schedule := sch } := by
  induction es generalizing s with
  | nil => rfl
  | cons e es ih =>
    refine Eq.trans (congrArg (fun t : State => t.hostEvents es) ?_) (ih (s.hostEvent e))
    cases e
    case load image =>
      simp only [State.hostEvent, State.load]
      split
      · rfl
      · exact s.memWriteBytes_withSchedule sch Config.progBase image
    all_goals rfl

/-- No host event takes RAM out of its canonical form. -/
theorem State.wf_hostEvent {s : State} (h : s.mem.wf) (e : HostEvent) : (s.hostEvent e).mem.wf := by
  cases e
  case load image =>
    show (s.load image).mem.wf
    unfold State.load
    split
    · exact h
    · exact State.wf_memWriteBytes h _ _
  case reset => exact Memory.wf_nil
  all_goals exact h

theorem State.wf_hostTurn {s : State} (h : s.mem.wf) : s.hostTurn.mem.wf := by
  have events : ∀ (es : List HostEvent) (s : State), s.mem.wf → (s.hostEvents es).mem.wf := by
    intro es
    induction es with
    | nil => exact fun _ h => h
    | cons e es ih => exact fun s h => ih _ (State.wf_hostEvent h e)
  unfold State.hostTurn
  split
  · exact events _ _ h
  · split
    · exact events _ _ h
    · exact events _ s.countDraw h

/-- The pressed keys depend on the key matrix alone. -/
theorem State.pressedKeys_congr {s t : State} (h : t.keys = s.keys) : t.pressedKeys = s.pressedKeys := by
  have : t.keyDown = s.keyDown := by funext k; simp [State.keyDown, h]
  simp [State.pressedKeys, this]

end Sys2Proof.Machine
end

