-- ==== Sys2Proof/Laws/Exec.lean ====
section
/-! SUPPORT. What `exec` answers for each instruction, and what a step can do, for later proofs to cite. -/

namespace Sys2Proof.Machine

variable (s : State)

/-! One equation for each instruction that always has a successor. -/

@[simp] theorem exec_cls :
    exec (.cls) s = .next (s.present Framebuffer.blank) := rfl
@[simp] theorem exec_jp (nnn : BitVec 12) :
    exec (.jp nnn) s = .next (s.setPc (zextAddr nnn)) := rfl
@[simp] theorem exec_seImm (x : RegIdx) (kk : Byte) :
    exec (.seImm x kk) s = .next (s.skipIf (s.readV x == kk)) := rfl
@[simp] theorem exec_sneImm (x : RegIdx) (kk : Byte) :
    exec (.sneImm x kk) s = .next (s.skipIf (s.readV x != kk)) := rfl
@[simp] theorem exec_seReg (x y : RegIdx) :
    exec (.seReg x y) s = .next (s.skipIf (s.readV x == s.readV y)) := rfl
@[simp] theorem exec_ldImm (x : RegIdx) (kk : Byte) :
    exec (.ldImm x kk) s = .next (s.writeV x kk) := rfl
@[simp] theorem exec_addImm (x : RegIdx) (kk : Byte) :
    exec (.addImm x kk) s = .next (s.writeV x (s.readV x + kk)) := rfl
@[simp] theorem exec_ldReg (x y : RegIdx) :
    exec (.ldReg x y) s = .next (s.writeV x (s.readV y)) := rfl
@[simp] theorem exec_orReg (x y : RegIdx) :
    exec (.orReg x y) s = .next (s.writeV x (s.readV x ||| s.readV y)) := rfl
@[simp] theorem exec_andReg (x y : RegIdx) :
    exec (.andReg x y) s = .next (s.writeV x (s.readV x &&& s.readV y)) := rfl
@[simp] theorem exec_xorReg (x y : RegIdx) :
    exec (.xorReg x y) s = .next (s.writeV x (s.readV x ^^^ s.readV y)) := rfl
@[simp] theorem exec_addReg (x y : RegIdx) :
    exec (.addReg x y) s = .next (s.writeResultAndFlag x (s.readV x + s.readV y) (carryOut (s.readV x) (s.readV y))) := rfl
@[simp] theorem exec_subReg (x y : RegIdx) :
    exec (.subReg x y) s = .next (s.writeResultAndFlag x (s.readV x - s.readV y) (noBorrow (s.readV x) (s.readV y))) := rfl
@[simp] theorem exec_shr (x y : RegIdx) :
    exec (.shr x y) s = .next (s.writeResultAndFlag x (s.readV x >>> 1) (droppedRight (s.readV x))) := rfl
@[simp] theorem exec_subnReg (x y : RegIdx) :
    exec (.subnReg x y) s = .next (s.writeResultAndFlag x (s.readV y - s.readV x) (noBorrow (s.readV y) (s.readV x))) := rfl
@[simp] theorem exec_shl (x y : RegIdx) :
    exec (.shl x y) s = .next (s.writeResultAndFlag x (s.readV x <<< 1) (droppedLeft (s.readV x))) := rfl
@[simp] theorem exec_sneReg (x y : RegIdx) :
    exec (.sneReg x y) s = .next (s.skipIf (s.readV x != s.readV y)) := rfl
@[simp] theorem exec_ldI (nnn : BitVec 12) :
    exec (.ldI nnn) s = .next (s.setI (zextAddr nnn)) := rfl
@[simp] theorem exec_jpV0 (nnn : BitVec 12) :
    exec (.jpV0 nnn) s = .next (s.setPc (zextAddr nnn + zextByte (s.readV 0))) := rfl
@[simp] theorem exec_rnd (x : RegIdx) (kk : Byte) :
    exec (.rnd x kk) s = .next (s.countDraw.writeV x (s.drawnByte &&& kk)) := rfl
@[simp] theorem exec_drw (x y : RegIdx) (n : BitVec 4) :
    exec (.drw x y n) s = .next ((s.present (s.drawn x y n).1).writeV flagReg (flagByte (s.drawn x y n).2)) := rfl
@[simp] theorem exec_skp (x : RegIdx) :
    exec (.skp x) s = .next (s.skipIf (s.keyDown (lowNibble (s.readV x)))) := rfl
@[simp] theorem exec_sknp (x : RegIdx) :
    exec (.sknp x) s = .next (s.skipIf (!s.keyDown (lowNibble (s.readV x)))) := rfl
@[simp] theorem exec_ldFromDT (x : RegIdx) :
    exec (.ldFromDT x) s = .next (s.writeV x s.dt) := rfl
@[simp] theorem exec_ldDT (x : RegIdx) :
    exec (.ldDT x) s = .next (s.setDT (s.readV x)) := rfl
@[simp] theorem exec_ldST (x : RegIdx) :
    exec (.ldST x) s = .next (s.setST (s.readV x)) := rfl
@[simp] theorem exec_addI (x : RegIdx) :
    exec (.addI x) s = .next (s.setI (s.i + zextByte (s.readV x))) := rfl
@[simp] theorem exec_ldF (x : RegIdx) :
    exec (.ldF x) s = .next (s.setI (glyphAddr (lowNibble (s.readV x)))) := rfl
@[simp] theorem exec_ldB (x : RegIdx) :
    exec (.ldB x) s = .next (s.memWriteBytes s.i (bcdDigits (s.readV x))) := rfl
@[simp] theorem exec_storeRegs (x : RegIdx) :
    exec (.storeRegs x) s = .next ((s.memWriteBytes s.i (s.readBlock x)).setI (s.i + BitVec.ofNat 16 (x.val + 1))) := rfl
@[simp] theorem exec_loadRegs (x : RegIdx) :
    exec (.loadRegs x) s = .next ((s.loadBlock x s.i).setI (s.i + BitVec.ofNat 16 (x.val + 1))) := rfl
@[simp] theorem exec_nop (w : Word) : exec (.nop w) s = .next s := rfl

/-! The three instructions with cases. -/

theorem exec_ret_of_ne (h : s.sp ≠ 0) : exec .ret s = .next s.popPc := if_neg h

theorem exec_ret_of_eq (h : s.sp = 0) : exec .ret s = .fault .stackUnderflow := if_pos h

theorem maxCallDepth_le_iff : Config.maxCallDepth ≤ s.sp.toNat ↔ s.sp = 15 := by
  generalize s.sp = p
  revert p
  decide

theorem exec_call_of_ne (nnn : BitVec 12) (h : s.sp ≠ 15) :
    exec (.call nnn) s = .next ((s.push s.pc).setPc (zextAddr nnn)) :=
  if_neg (mt (maxCallDepth_le_iff s).1 h)

theorem exec_call_of_eq (nnn : BitVec 12) (h : s.sp = 15) : exec (.call nnn) s = .fault .stackOverflow :=
  if_pos ((maxCallDepth_le_iff s).2 h)

theorem exec_ldKey_of_nil (x : RegIdx) (h : s.pressedKeys = []) :
    exec (.ldKey x) s = .next (s.setPc (s.pc - 2)) := by
  simp [exec, execLdKey, h]

theorem exec_ldKey_of_cons (x : RegIdx) {k : KeyIdx} {ks : List KeyIdx} (h : s.pressedKeys = k :: ks) :
    exec (.ldKey x) s = .next (s.countDraw.writeV x (keyByte (s.chosenKey k ks))) := by
  simp [exec, execLdKey, h]

/-- The cases of an instruction that answers a next state: RET, CALL, LD Vx, K without and with a key, the others. -/
theorem exec_cases {motive : Prop} {s t : State} {i : Instr} (h : exec i s = .next t)
    (ret : i = .ret → s.sp ≠ 0 → t = s.popPc → motive)
    (call : ∀ nnn, i = .call nnn → s.sp ≠ 15 → t = (s.push s.pc).setPc (zextAddr nnn) → motive)
    (wait : ∀ x, i = .ldKey x → s.pressedKeys = [] → t = s.setPc (s.pc - 2) → motive)
    (key : ∀ x k ks, i = .ldKey x → s.pressedKeys = k :: ks →
      t = s.countDraw.writeV x (keyByte (s.chosenKey k ks)) → motive)
    (other : i ≠ .ret → (∀ nnn, i ≠ .call nnn) → (∀ x, i ≠ .ldKey x) → motive) : motive := by
  cases i
  case ret =>
    by_cases hs : s.sp = 0
    · rw [exec_ret_of_eq s hs] at h; cases h
    · rw [exec_ret_of_ne s hs] at h; cases h; exact ret rfl hs rfl
  case call nnn =>
    by_cases hs : s.sp = 15
    · rw [exec_call_of_eq s nnn hs] at h; cases h
    · rw [exec_call_of_ne s nnn hs] at h; cases h; exact call _ rfl hs rfl
  case ldKey x =>
    cases hk : s.pressedKeys with
    | nil => rw [exec_ldKey_of_nil s x hk] at h; cases h; exact wait _ rfl hk rfl
    | cons k ks => rw [exec_ldKey_of_cons s x hk] at h; cases h; exact key _ _ _ rfl hk rfl
  all_goals exact other (by simp) (by simp) (by simp)

/-- If an instruction answers a next state, RAM is as before, or bytes have been stored at `I` upward. -/
theorem exec_mem_cases {i : Instr} {t : State} (h : exec i s = .next t) :
    t.mem = s.mem ∨ ∃ bs, t.mem = (s.memWriteBytes s.i bs).mem := by
  refine exec_cases h (fun _ _ e => .inl (by simp [e])) (fun _ _ _ e => .inl (by simp [e]))
    (fun _ _ _ e => .inl (by simp [e])) (fun _ _ _ _ _ e => .inl (by simp [e])) fun h1 h2 h3 => ?_
  cases i
  case ret => exact absurd rfl h1
  case call nnn => exact absurd rfl (h2 nnn)
  case ldKey x => exact absurd rfl (h3 x)
  case ldB x => cases h; exact .inr ⟨_, rfl⟩
  case storeRegs x => cases h; exact .inr ⟨_, rfl⟩
  all_goals cases h; simp

/-! No instruction depends on what the host does next, and none changes it. -/

theorem exec_own {i : Instr} {t : State} (h : exec i s = .next t) :
    t.schedule = s.schedule ∧ t.hostTail = s.hostTail := by
  refine exec_cases h (fun _ _ e => by simp [e]) (fun _ _ _ e => by simp [e]) (fun _ _ _ e => by simp [e])
    (fun _ _ _ _ _ e => by simp [e]) fun h1 h2 h3 => ?_
  cases i
  case ret => exact absurd rfl h1
  case call nnn => exact absurd rfl (h2 nnn)
  case ldKey x => exact absurd rfl (h3 x)
  all_goals cases h; simp

/-- An instruction answers alike under any schedule, and the schedule it found is there afterwards. -/
theorem exec_withSchedule (i : Instr) (sch : List (List HostEvent)) :
    exec i { s with schedule := sch } =
      match exec i s with
      | .next t => .next { t with schedule := sch }
      | .fault f => .fault f
      | .refused r => .refused r := by
  have skip : ∀ c, State.skipIf { s with schedule := sch } c = { s.skipIf c with schedule := sch } := by
    intro c
    cases c <;> rfl
  cases i
  case ret =>
    by_cases hs : s.sp = 0
    · rw [exec_ret_of_eq s hs, exec_ret_of_eq { s with schedule := sch } hs]
    · rw [exec_ret_of_ne s hs, exec_ret_of_ne { s with schedule := sch } hs]; rfl
  case call nnn =>
    by_cases hs : s.sp = 15
    · rw [exec_call_of_eq s nnn hs, exec_call_of_eq { s with schedule := sch } nnn hs]
    · rw [exec_call_of_ne s nnn hs, exec_call_of_ne { s with schedule := sch } nnn hs]; rfl
  case ldKey x =>
    have e : State.pressedKeys { s with schedule := sch } = s.pressedKeys := State.pressedKeys_congr rfl
    cases hk : s.pressedKeys with
    | nil => rw [exec_ldKey_of_nil s x hk, exec_ldKey_of_nil { s with schedule := sch } x (e.trans hk)]; rfl
    | cons k ks => rw [exec_ldKey_of_cons s x hk, exec_ldKey_of_cons { s with schedule := sch } x (e.trans hk)]; rfl
  case drw x y n =>
    have e : State.drawn { s with schedule := sch } x y n = s.drawn x y n := by
      unfold State.drawn
      rw [State.memReadBytes_congr (s := s) (t := { s with schedule := sch }) rfl]; rfl
    simp only [exec_drw, e]; rfl
  case ldB x => exact congrArg Host.Outcome.next (s.memWriteBytes_withSchedule sch s.i _)
  case storeRegs x =>
    exact congrArg (fun t : State => Host.Outcome.next (t.setI (s.i + BitVec.ofNat 16 (x.val + 1))))
      (s.memWriteBytes_withSchedule sch s.i (s.readBlock x))
  case seImm => exact congrArg Host.Outcome.next (skip _)
  case sneImm => exact congrArg Host.Outcome.next (skip _)
  case seReg => exact congrArg Host.Outcome.next (skip _)
  case sneReg => exact congrArg Host.Outcome.next (skip _)
  case skp => exact congrArg Host.Outcome.next (skip _)
  case sknp => exact congrArg Host.Outcome.next (skip _)
  all_goals rfl

/-! What one step can do. -/

/-- A step is the host's turn, then the instruction the word at `pc` decodes to, in the advanced state. -/
theorem step_eq : step s = exec (decodeWord s.hostTurn.fetchWord) s.hostTurn.advance := rfl

theorem hostQuiet_iff : hostQuiet s = true ↔ s.schedule = [] ∧ s.hostTail = .repeats [] := by
  simp [hostQuiet]

/-- While the host is silent a step is the Step alone. -/
theorem step_of_quiet (h : hostQuiet s = true) : step s = exec (decodeWord s.fetchWord) s.advance := by
  obtain ⟨h1, h2⟩ := (hostQuiet_iff s).1 h
  rw [step_eq, s.hostTurn_of_silent h1 h2]

end Sys2Proof.Machine
end

