-- ==== Sys2Proof/Laws/PerInstr.lean ====
section
/-! SUPPORT. Statements made instruction by instruction (LAWS.json): the canonical word of a well-formed
instruction selects the row of the opcode map the instruction belongs to, and no other. -/

namespace Sys2Proof.Laws.EncodesItsRow

/-- The word an instruction encodes to selects its own row and no other (30_encoding R50). -/
def Statement (i : Instr) : Prop :=
  i.wellFormed = true → ∀ r ∈ opcodeMap, r.selects (encode i) = (r.row == i.row)

/-- The rows with this decode key are the rows of this number. -/
def KeyHasRow (op n : BitVec 4) (kk : Byte) (k : Nat) : Prop :=
  (opcodeMap.all fun r => r.matchesKey op n kk == (r.row == k)) = true

/-- It is enough to look at the decode key of the encoded word. -/
theorem of_key {i : Instr}
    (h : KeyHasRow (fieldOp (encode i)) (fieldN (encode i)) (fieldKK (encode i)) i.row) : Statement i :=
  fun _ r hr => (selects_eq_matchesKey hr _).trans (beq_iff_eq.1 (List.all_eq_true.1 h r hr))

theorem of_wordNNN {i : Instr} {op : BitVec 4} {nnn : BitVec 12} (he : encode i = wordNNN op nnn)
    (h : KeyHasRow op (fieldN (encode i)) (fieldKK (encode i)) i.row) : Statement i :=
  of_key (by rw [he, fieldOp_wordNNN, ← he]; exact h)

theorem of_wordXKK {i : Instr} {op : BitVec 4} {x : RegIdx} {kk : Byte} (he : encode i = wordXKK op x kk)
    (h : KeyHasRow op (kk.extractLsb' 0 4) kk i.row) : Statement i :=
  of_key (by rw [he, fieldOp_wordXKK, fieldN_wordXKK, fieldKK_wordXKK]; exact h)

theorem of_wordXYN {i : Instr} {op n : BitVec 4} {x y : RegIdx} (he : encode i = wordXYN op x y n)
    (h : KeyHasRow op n (fieldKK (encode i)) i.row) : Statement i :=
  of_key (by rw [he, fieldOp_wordXYN, fieldN_wordXYN, ← he]; exact h)

theorem cls : Statement .cls := of_key rfl

theorem ret : Statement .ret := of_key rfl

theorem jp (nnn : BitVec 12) : Statement (.jp nnn) := of_wordNNN rfl rfl

theorem call (nnn : BitVec 12) : Statement (.call nnn) := of_wordNNN rfl rfl

theorem seImm (x : RegIdx) (kk : Byte) : Statement (.seImm x kk) := of_wordXKK rfl rfl

theorem sneImm (x : RegIdx) (kk : Byte) : Statement (.sneImm x kk) := of_wordXKK rfl rfl

theorem seReg (x y : RegIdx) : Statement (.seReg x y) := of_wordXYN rfl rfl

theorem ldImm (x : RegIdx) (kk : Byte) : Statement (.ldImm x kk) := of_wordXKK rfl rfl

theorem addImm (x : RegIdx) (kk : Byte) : Statement (.addImm x kk) := of_wordXKK rfl rfl

theorem ldReg (x y : RegIdx) : Statement (.ldReg x y) := of_wordXYN rfl rfl

theorem orReg (x y : RegIdx) : Statement (.orReg x y) := of_wordXYN rfl rfl

theorem andReg (x y : RegIdx) : Statement (.andReg x y) := of_wordXYN rfl rfl

theorem xorReg (x y : RegIdx) : Statement (.xorReg x y) := of_wordXYN rfl rfl

theorem addReg (x y : RegIdx) : Statement (.addReg x y) := of_wordXYN rfl rfl

theorem subReg (x y : RegIdx) : Statement (.subReg x y) := of_wordXYN rfl rfl

theorem shr (x y : RegIdx) : Statement (.shr x y) := of_wordXYN rfl rfl

theorem subnReg (x y : RegIdx) : Statement (.subnReg x y) := of_wordXYN rfl rfl

theorem shl (x y : RegIdx) : Statement (.shl x y) := of_wordXYN rfl rfl

theorem sneReg (x y : RegIdx) : Statement (.sneReg x y) := of_wordXYN rfl rfl

theorem ldI (nnn : BitVec 12) : Statement (.ldI nnn) := of_wordNNN rfl rfl

theorem jpV0 (nnn : BitVec 12) : Statement (.jpV0 nnn) := of_wordNNN rfl rfl

theorem rnd (x : RegIdx) (kk : Byte) : Statement (.rnd x kk) := of_wordXKK rfl rfl

theorem drw (x y : RegIdx) (n : BitVec 4) : Statement (.drw x y n) := of_wordXYN rfl rfl

theorem skp (x : RegIdx) : Statement (.skp x) := of_wordXKK rfl rfl

theorem sknp (x : RegIdx) : Statement (.sknp x) := of_wordXKK rfl rfl

theorem ldFromDT (x : RegIdx) : Statement (.ldFromDT x) := of_wordXKK rfl rfl

theorem ldKey (x : RegIdx) : Statement (.ldKey x) := of_wordXKK rfl rfl

theorem ldDT (x : RegIdx) : Statement (.ldDT x) := of_wordXKK rfl rfl

theorem ldST (x : RegIdx) : Statement (.ldST x) := of_wordXKK rfl rfl

theorem addI (x : RegIdx) : Statement (.addI x) := of_wordXKK rfl rfl

theorem ldF (x : RegIdx) : Statement (.ldF x) := of_wordXKK rfl rfl

theorem ldB (x : RegIdx) : Statement (.ldB x) := of_wordXKK rfl rfl

theorem storeRegs (x : RegIdx) : Statement (.storeRegs x) := of_wordXKK rfl rfl

theorem loadRegs (x : RegIdx) : Statement (.loadRegs x) := of_wordXKK rfl rfl

theorem nop (w : Word) : Statement (.nop w) := fun hw r hr => by
  have hrow : ∀ r ∈ opcodeMap, (r.row == 35) = false := by decide
  have hsel := List.all_eq_true.1 hw r hr
  exact ((Bool.not_eq_true' _).mp hsel).trans (hrow r hr).symm

end Sys2Proof.Laws.EncodesItsRow
end

