-- ==== Sys2Proof/Tests/Slice0.lean ====
section
/-! SUPPORT. Small tests with results from the spec (95_test_vectors; the id or table stands before each), and for
every obligation with hypotheses a witness that meets them. -/

open Sys2Proof Sys2Proof.Machine Sys2Proof.Claims

namespace Sys2Proof.Tests

/-! WellFormed: the one operand that can be ill formed is the word of the no-op. -/

theorem test_wf_refuses_nop_cls_word : (Instr.nop 0x00E0).wellFormed = false := by decide
theorem test_wf_refuses_nop_primary_word : (Instr.nop 0x1ABC).wellFormed = false := by decide
theorem test_wf_refuses_nop_noncanonical_word : (Instr.nop 0xE101).wellFormed = false := by decide
theorem test_wf_accepts_nop_word : (Instr.nop 0x8128).wellFormed = true := by decide

/-! Decode: one word of each row, its four fields written out from the canonical words of 30_encoding R50. -/

theorem test_decode_cls : decodeWord 0b0000_0000_1110_0000 = .cls := by decide
theorem test_decode_ret : decodeWord 0b0000_0000_1110_1110 = .ret := by decide
theorem test_decode_jp : decodeWord 0b0001_1010_1011_1100 = .jp 0xABC := by decide
theorem test_decode_call : decodeWord 0b0010_0011_0000_0000 = .call 0x300 := by decide
theorem test_decode_se_imm : decodeWord 0b0011_1010_0100_0010 = .seImm 0xA 0x42 := by decide
theorem test_decode_sne_imm : decodeWord 0b0100_1010_0100_0010 = .sneImm 0xA 0x42 := by decide
theorem test_decode_se_reg : decodeWord 0b0101_1010_1011_0000 = .seReg 0xA 0xB := by decide
theorem test_decode_ld_imm : decodeWord 0b0110_1010_0100_0010 = .ldImm 0xA 0x42 := by decide
theorem test_decode_add_imm : decodeWord 0b0111_1010_0001_0000 = .addImm 0xA 0x10 := by decide
theorem test_decode_ld_reg : decodeWord 0b1000_1010_1011_0000 = .ldReg 0xA 0xB := by decide
theorem test_decode_or : decodeWord 0b1000_1010_1011_0001 = .orReg 0xA 0xB := by decide
theorem test_decode_and : decodeWord 0b1000_1010_1011_0010 = .andReg 0xA 0xB := by decide
theorem test_decode_xor : decodeWord 0b1000_1010_1011_0011 = .xorReg 0xA 0xB := by decide
theorem test_decode_add_reg : decodeWord 0b1000_1010_1011_0100 = .addReg 0xA 0xB := by decide
theorem test_decode_sub : decodeWord 0b1000_1010_1011_0101 = .subReg 0xA 0xB := by decide
theorem test_decode_shr : decodeWord 0b1000_1010_1011_0110 = .shr 0xA 0xB := by decide
theorem test_decode_subn : decodeWord 0b1000_1010_1011_0111 = .subnReg 0xA 0xB := by decide
theorem test_decode_shl : decodeWord 0b1000_1010_1011_1110 = .shl 0xA 0xB := by decide
theorem test_decode_sne_reg : decodeWord 0b1001_1010_1011_0000 = .sneReg 0xA 0xB := by decide
theorem test_decode_ld_i : decodeWord 0b1010_0011_0000_0000 = .ldI 0x300 := by decide
theorem test_decode_jp_v0 : decodeWord 0b1011_0011_0000_0000 = .jpV0 0x300 := by decide
theorem test_decode_rnd : decodeWord 0b1100_1010_0000_1111 = .rnd 0xA 0x0F := by decide
theorem test_decode_drw : decodeWord 0b1101_0001_0010_0101 = .drw 1 2 5 := by decide
theorem test_decode_skp : decodeWord 0b1110_0001_1001_1110 = .skp 1 := by decide
theorem test_decode_sknp : decodeWord 0b1110_0001_1010_0001 = .sknp 1 := by decide
theorem test_decode_ld_from_dt : decodeWord 0b1111_0001_0000_0111 = .ldFromDT 1 := by decide
theorem test_decode_ld_key : decodeWord 0b1111_0011_0000_1010 = .ldKey 3 := by decide
theorem test_decode_ld_dt : decodeWord 0b1111_0000_0001_0101 = .ldDT 0 := by decide
theorem test_decode_ld_st : decodeWord 0b1111_0010_0001_1000 = .ldST 2 := by decide
theorem test_decode_add_i : decodeWord 0b1111_0001_0001_1110 = .addI 1 := by decide
theorem test_decode_ld_f : decodeWord 0b1111_0000_0010_1001 = .ldF 0 := by decide
theorem test_decode_ld_b : decodeWord 0b1111_0000_0011_0011 = .ldB 0 := by decide
theorem test_decode_store_regs : decodeWord 0b1111_0010_0101_0101 = .storeRegs 2 := by decide
theorem test_decode_load_regs : decodeWord 0b1111_0010_0110_0101 = .loadRegs 2 := by decide
theorem test_decode_nop : decodeWord 0b1000_0001_0010_1000 = .nop 0x8128 := by decide

/-- Table DEC: words that are not canonical. -/
theorem test_decode_ignores_bits :
    decodeWord 0x0230 = .cls ∧ decodeWord 0x012E = .ret ∧ decodeWord 0x9AB3 = .sneReg 0xA 0xB ∧
    decodeWord 0xE1FE = .skp 1 ∧ decodeWord 0xE101 = .sknp 1 := by decide

/-- Table DEC: words no row selects, one of each two-level family at the edges of the list. -/
theorem test_decode_unrecognised : decodeWord 0x0FFF = .nop 0x0FFF ∧ decodeWord 0x812F = .nop 0x812F ∧
    decodeWord 0xE100 = .nop 0xE100 ∧ decodeWord 0xF10B = .nop 0xF10B := by decide

/-- 20_memory R34: the first byte is the high one; a lone byte is no instruction. -/
theorem test_decode_bytes :
    decode [0x6A, 0x42, 0xFF] = .ok (.ldImm 0xA 0x42, [0xFF]) ∧ decode [0x6A] = .error .truncated := by
  decide

theorem test_decode_table_word : decodeTableWord 16 0xD125 = some (.drw 1 2 5) := by decide

/-- R50, column "canonical word". -/
theorem test_encode_canonical : encode .cls = 0x00E0 ∧ encode .ret = 0x00EE ∧ encode (.seReg 0xA 0xB) = 0x5AB0 ∧
    encode (.shl 0xA 0xB) = 0x8ABE ∧ encode (.drw 1 2 5) = 0xD125 ∧ encode (.skp 1) = 0xE19E ∧
    encode (.loadRegs 2) = 0xF265 := by decide

/-! One step from Reset. -/

/-- One step on the word `w`, placed at `pc`, after the changes `f` to the state after Reset. -/
def stepOn (w : Nat) (f : State → State) : Host.Outcome State Fault Refusal := step ((f State.reset).withFetchWord 16 w)

/-- A reading of the next state, if there is one. -/
def after {α : Type} (o : Host.Outcome State Fault Refusal) (f : State → α) : Option α :=
  match o with
  | .next s => some (f s)
  | .fault _ => none
  | .refused _ => none

/-- The reason of a fault, if the step faults. -/
def faultOf (o : Host.Outcome State Fault Refusal) : Option Fault :=
  match o with
  | .next _ => none
  | .fault r => some r
  | .refused _ => none

/-! Control flow. -/

/-- Table CF: 1201, an odd target. -/
theorem test_jp :
    after (stepOn 0x1201 id)
      (fun s => s.pc) = some 0x201 := by decide
/-- S12 and table CF: CALL with SP = E, at 0FFE, pushes 1000. -/
theorem test_call :
    after (stepOn 0x2300 (fun s => { s with pc := 0xFFE, sp := 14 }))
      (fun s => (s.pc, s.sp, s.readStack 14)) = some (0x300, 15, 0x1000) := by decide
/-- S12: CALL with SP = F. -/
theorem test_call_overflow : faultOf (stepOn 0x2300 (fun s => { s with sp := 15 })) = some .stackOverflow := by decide
/-- Table CF: 00EE. -/
theorem test_ret :
    after (stepOn 0x00EE (fun s => { s with pc := 0x300, sp := 1, stack := s.stack.set 0 0x202 }))
      (fun s => (s.pc, s.sp, s.readStack 0)) = some (0x202, 0, 0x202) := by decide
/-- S12: RET with SP = 0. -/
theorem test_ret_underflow : faultOf (stepOn 0x00EE id) = some .stackUnderflow := by decide
/-- S10. -/
theorem test_se_imm :
    after (stepOn 0x3A42 (fun s => s.writeV 0xA 0x42))
      (fun s => s.pc) = some 0x204 := by decide
/-- Table CF: 3000 at FFFC. -/
theorem test_se_imm_wraps :
    after (stepOn 0x3000 (fun s => { s with pc := 0xFFFC }))
      (fun s => s.pc) = some 0 := by decide
/-- Table CF: 4A42. -/
theorem test_sne_imm :
    after (stepOn 0x4A42 (fun s => s.writeV 0xA 0x43))
      (fun s => s.pc) = some 0x204 := by decide
/-- Table CF: 4A42. -/
theorem test_sne_imm_equal :
    after (stepOn 0x4A42 (fun s => s.writeV 0xA 0x42))
      (fun s => s.pc) = some 0x202 := by decide
/-- Table CF: 5AB0. -/
theorem test_se_reg :
    after (stepOn 0x5AB0 (fun s => (s.writeV 0xA 7).writeV 0xB 7))
      (fun s => s.pc) = some 0x204 := by decide
/-- Table CF: 5AB0. -/
theorem test_se_reg_unequal :
    after (stepOn 0x5AB0 (fun s => (s.writeV 0xA 7).writeV 0xB 8))
      (fun s => s.pc) = some 0x202 := by decide
/-- Table CF: 9AB0. -/
theorem test_sne_reg :
    after (stepOn 0x9AB0 (fun s => (s.writeV 0xA 7).writeV 0xB 8))
      (fun s => s.pc) = some 0x204 := by decide
/-- Table CF: 9AA0. -/
theorem test_sne_reg_same :
    after (stepOn 0x9AA0 (fun s => s.writeV 0xA 9))
      (fun s => s.pc) = some 0x202 := by decide
/-- S8. -/
theorem test_jp_v0 :
    after (stepOn 0xB300 (fun s => (s.writeV 0 0x10).writeV 3 0x77))
      (fun s => s.pc) = some 0x310 := by decide
/-- Table CF: BFFF. -/
theorem test_jp_v0_whole_sum :
    after (stepOn 0xBFFF (fun s => s.writeV 0 0xFF))
      (fun s => s.pc) = some 0x10FE := by decide
/-- Table DEC: 8128 only advances pc. -/
theorem test_nop : stepOn 0x8128 id = .next { State.reset.withFetchWord 16 0x8128 with pc := 0x202 } := rfl
/-- Table CF: the fetch at 0FFF takes its low byte from RAM[000] = F0, and runs JP 2F0. -/
theorem test_fetch_wraps :
    after (step ({ State.reset with pc := 0xFFF }.memWrite 0xFFF 0x12)) (fun s => s.pc) = some 0x2F0 := by decide

/-! Arithmetic and logic (table AL). -/

/-- Table AL: 6A42. -/
theorem test_ld_imm :
    after (stepOn 0x6A42 id)
      (fun s => s.readV 0xA) = some 0x42 := by decide
/-- Table AL: 7A01. -/
theorem test_add_imm_no_flag :
    after (stepOn 0x7A01 (fun s => (s.writeV 0xA 0xFF).writeV 0xF 0x55))
      (fun s => (s.readV 0xA, s.readV 0xF)) = some (0, 0x55) := by decide
/-- Table AL: 8AB0. -/
theorem test_ld_reg :
    after (stepOn 0x8AB0 (fun s => ((s.writeV 0xA 1).writeV 0xB 0x99).writeV 0xF 0x55))
      (fun s => (s.readV 0xA, s.readV 0xB, s.readV 0xF)) = some (0x99, 0x99, 0x55) := by decide
/-- Table AL: 8AB1. -/
theorem test_or :
    after (stepOn 0x8AB1 (fun s => ((s.writeV 0xA 0xF0).writeV 0xB 0x0F).writeV 0xF 0x55))
      (fun s => (s.readV 0xA, s.readV 0xF)) = some (0xFF, 0x55) := by decide
/-- Table AL: 8FA1. -/
theorem test_or_into_vf :
    after (stepOn 0x8FA1 (fun s => (s.writeV 0xF 1).writeV 0xA 0x80))
      (fun s => s.readV 0xF) = some 0x81 := by decide
/-- Table AL: 8AB2. -/
theorem test_and :
    after (stepOn 0x8AB2 (fun s => ((s.writeV 0xA 0xF0).writeV 0xB 0x3C).writeV 0xF 0x55))
      (fun s => (s.readV 0xA, s.readV 0xF)) = some (0x30, 0x55) := by decide
/-- Table AL: 8AB3. -/
theorem test_xor :
    after (stepOn 0x8AB3 (fun s => ((s.writeV 0xA 0xFF).writeV 0xB 0x0F).writeV 0xF 0x55))
      (fun s => (s.readV 0xA, s.readV 0xF)) = some (0xF0, 0x55) := by decide
/-- Table AL: 8AB4. -/
theorem test_add_reg :
    after (stepOn 0x8AB4 (fun s => ((s.writeV 0xA 0xFF).writeV 0xB 0).writeV 0xF 1))
      (fun s => (s.readV 0xA, s.readV 0xF)) = some (0xFF, 0) := by decide
/-- Table AL: 8FF4. -/
theorem test_add_reg_flag_wins :
    after (stepOn 0x8FF4 (fun s => s.writeV 0xF 0x80))
      (fun s => s.readV 0xF) = some 1 := by decide
/-- S5. -/
theorem test_sub :
    after (stepOn 0x8AB5 (fun s => ((s.writeV 0xA 0x0A).writeV 0xB 0x14).writeV 0xF 1))
      (fun s => (s.readV 0xA, s.readV 0xF)) = some (0xF6, 0) := by decide
/-- Table AL: 8FA5. -/
theorem test_sub_flag_wins :
    after (stepOn 0x8FA5 (fun s => (s.writeV 0xF 0x14).writeV 0xA 0x0A))
      (fun s => s.readV 0xF) = some 1 := by decide
/-- Table AL: 8AB7. -/
theorem test_subn :
    after (stepOn 0x8AB7 (fun s => (s.writeV 0xA 0x0A).writeV 0xB 0x14))
      (fun s => (s.readV 0xA, s.readV 0xF)) = some (0x0A, 1) := by decide
/-- Table AL: 8FA7. -/
theorem test_subn_flag_wins :
    after (stepOn 0x8FA7 (fun s => (s.writeV 0xF 0x14).writeV 0xA 0x0A))
      (fun s => s.readV 0xF) = some 0 := by decide
/-- Table AL: 8AB6. -/
theorem test_shr :
    after (stepOn 0x8AB6 (fun s => (s.writeV 0xA 3).writeV 0xB 0x80))
      (fun s => (s.readV 0xA, s.readV 0xB, s.readV 0xF)) = some (1, 0x80, 1) := by decide
/-- Table AL: 8FF6. -/
theorem test_shr_flag_wins :
    after (stepOn 0x8FF6 (fun s => s.writeV 0xF 2))
      (fun s => s.readV 0xF) = some 0 := by decide
/-- Table AL: 8ABE. -/
theorem test_shl :
    after (stepOn 0x8ABE (fun s => (s.writeV 0xA 0x81).writeV 0xB 1))
      (fun s => (s.readV 0xA, s.readV 0xB, s.readV 0xF)) = some (2, 1, 1) := by decide
/-- Table AL: 8FFE. -/
theorem test_shl_flag_wins :
    after (stepOn 0x8FFE (fun s => s.writeV 0xF 0x40))
      (fun s => s.readV 0xF) = some 0 := by decide
/-- Table AL: CA00, for every drawn byte. -/
theorem test_rnd_mask_zero (s : State) : after (exec (.rnd 0xA 0) s) (fun t => t.readV 0xA) = some 0 := by
  simp [after]
/-- Table AL: CAFF gives the drawn byte. -/
theorem test_rnd_mask_all (s : State) : after (exec (.rnd 0xA 0xFF) s) (fun t => t.readV 0xA) = some s.drawnByte := by
  have h : (0xFF : Byte) = BitVec.allOnes 8 := rfl
  rw [h]
  simp only [after, exec_rnd, State.readV_writeV_same, BitVec.and_allOnes]

/-! Display and input (table DI). -/

/-- S3. -/
theorem test_cls :
    after (stepOn 0x00E0 (fun s => { s with fb := s.fb.flip 3 4 }))
      (fun s => (s.fb.pixel 3 4, s.redraw)) = some (false, true) := by decide
/-- Table DI: row FF from column 62. -/
theorem test_drw_wraps_columns :
    after (stepOn 0xD011 (fun s => { (s.writeV 0 0x3E).memWrite 0x300 0xFF with i := 0x300 }))
      (fun s => (s.fb.pixel 61 0, s.fb.pixel 62 0, s.fb.pixel 5 0, s.fb.pixel 6 0, s.readV 0xF)) = some (false, true, true, false, 0) := by decide
/-- Table DI: rows 80 80 onto (0, 0). -/
theorem test_drw_collides :
    after (stepOn 0xD012 (fun s => { (s.memWrite 0x300 0x80).memWrite 0x301 0x80 with i := 0x300, fb := s.fb.flip 0 0 }))
      (fun s => (s.fb.pixel 0 0, s.fb.pixel 0 1, s.readV 0xF, s.redraw, s.i)) = some (false, true, 1, true, 0x300) := by decide
/-- Table DI: E19E, the upper nibble is ignored. -/
theorem test_skp :
    after (stepOn 0xE19E (fun s => { s.writeV 1 0x1A with keys := s.keys.set 10 true }))
      (fun s => s.pc) = some 0x204 := by decide
/-- Table DI: E19E. -/
theorem test_skp_up :
    after (stepOn 0xE19E (fun s => s.writeV 1 7))
      (fun s => s.pc) = some 0x202 := by decide
/-- Table DI: E1A1. -/
theorem test_sknp :
    after (stepOn 0xE1A1 (fun s => s.writeV 1 7))
      (fun s => s.pc) = some 0x204 := by decide
/-- Table DI: E1A1. -/
theorem test_sknp_down :
    after (stepOn 0xE1A1 (fun s => { s.writeV 1 0xF7 with keys := s.keys.set 7 true }))
      (fun s => s.pc) = some 0x202 := by decide
/-- Table DI: F30A with no key. -/
theorem test_ld_key_waits :
    after (stepOn 0xF30A (fun s => s.writeV 3 0x55))
      (fun s => (s.pc, s.readV 3)) = some (0x200, 0x55) := by decide
/-- Table DI: F30A with key B. -/
theorem test_ld_key :
    after (stepOn 0xF30A (fun s => { s.writeV 3 0x55 with keys := s.keys.set 11 true }))
      (fun s => (s.pc, s.readV 3)) = some (0x202, 0x0B) := by decide

/-! Timers, index register, memory blocks (table TM). -/

/-- Table TM: F107. -/
theorem test_ld_from_dt :
    after (stepOn 0xF107 (fun s => { s with dt := 0x2A }))
      (fun s => (s.readV 1, s.dt)) = some (0x2A, 0x2A) := by decide
/-- Table TM: F015. -/
theorem test_ld_dt :
    after (stepOn 0xF015 (fun s => s.writeV 0 0x3C))
      (fun s => (s.dt, s.st)) = some (0x3C, 0) := by decide
/-- Table TM: F218. -/
theorem test_ld_st :
    after (stepOn 0xF218 (fun s => s.writeV 2 4))
      (fun s => (s.st, s.dt)) = some (4, 0) := by decide
/-- Table TM: AFFF. -/
theorem test_ld_i :
    after (stepOn 0xAFFF (fun s => { s with i := 0xFFFF }))
      (fun s => s.i) = some 0x0FFF := by decide
/-- Table TM: F11E, no flag. -/
theorem test_add_i :
    after (stepOn 0xF11E (fun s => { (s.writeV 1 1).writeV 0xF 0x55 with i := 0xFFF }))
      (fun s => (s.i, s.readV 0xF)) = some (0x1000, 0x55) := by decide
/-- Table TM: F11E. -/
theorem test_add_i_wraps :
    after (stepOn 0xF11E (fun s => { s.writeV 1 0xFF with i := 0xFF80 }))
      (fun s => s.i) = some 0x007F := by decide
/-- Table TM: F029, the upper nibble is ignored. -/
theorem test_ld_f :
    after (stepOn 0xF029 (fun s => s.writeV 0 0x1A))
      (fun s => s.i) = some 0x32 := by decide
/-- Table TM: F033. -/
theorem test_ld_b :
    after (stepOn 0xF033 (fun s => { s.writeV 0 0xFE with i := 0x300 }))
      (fun s => (s.memRead 0x300, s.memRead 0x301, s.memRead 0x302, s.i)) = some (2, 5, 4, 0x300) := by decide
/-- Table TM: F033 at 0FFE. -/
theorem test_ld_b_wraps :
    after (stepOn 0xF033 (fun s => { s.writeV 0 0x7B with i := 0xFFE }))
      (fun s => (s.memRead 0xFFE, s.memRead 0xFFF, s.memRead 0, s.memRead 1)) = some (1, 2, 3, 0x90) := by decide
/-- Table TM: F255. -/
theorem test_store_regs :
    after (stepOn 0xF255 (fun s => { (((s.writeV 0 0x11).writeV 1 0x22).writeV 2 0x33).writeV 3 0x44 with i := 0x400 }))
      (fun s => (s.memRead 0x400, s.memRead 0x402, s.memRead 0x403, s.i)) = some (0x11, 0x33, 0, 0x403) := by decide
/-- Table TM: F155 at 0FFF. -/
theorem test_store_regs_wraps :
    after (stepOn 0xF155 (fun s => { (s.writeV 0 0xAA).writeV 1 0xBB with i := 0xFFF }))
      (fun s => (s.memRead 0xFFF, s.memRead 0, s.i)) = some (0xAA, 0xBB, 0x1001) := by decide
/-- Table TM: F265. -/
theorem test_load_regs :
    after (stepOn 0xF265 (fun s => { ((((s.writeV 3 0x77).memWrite 0x300 2).memWrite 0x301 5).memWrite 0x302 4).memWrite 0x303 9 with i := 0x300 }))
      (fun s => (s.readV 0, s.readV 1, s.readV 2, s.readV 3, s.i)) = some (2, 5, 4, 0x77, 0x303) := by decide
/-- Table TM: FF65 at 0. -/
theorem test_load_regs_font :
    after (stepOn 0xFF65 id)
      (fun s => (s.readV 0, s.readV 5, s.readV 0xF, s.i)) = some (0xF0, 0x20, 0xF0, 0x10) := by decide

/-! Host events (table EV, S1, S14). -/

theorem test_tick : (let s := { State.reset with dt := 0xFF, st := 3 }.hostEvent .tick; (s.dt, s.st)) = (0xFE, 2) := by decide
theorem test_tick_at_zero : (let s := { State.reset with dt := 1 }.hostEvent .tick; (s.dt, s.st)) = (0, 0) := by decide
theorem test_key_write : (State.reset.hostEvent (.keyWrite 0xB true)).keyDown 0xB = true := by decide
theorem test_redraw_clear : ({ State.reset with redraw := true }.hostEvent .redrawClear).redraw = false := by decide

/-- Table EV: a second, shorter image leaves the tail of the first. -/
theorem test_load_keeps_tail :
    (let s := State.reset.hostEvents [.load [1, 2, 3, 4], .load [9]]
     (s.memRead 0x200, s.memRead 0x201, s.memRead 0x203, s.memRead 0x204)) = (9, 2, 4, 0) := by decide

/-- S1: 3584 bytes fit, 3585 do not. -/
theorem test_load_limit (image : List Byte) :
    (image.length = 3584 → State.reset.hostReply (.load image) = .loaded) ∧
    (image.length = 3585 → State.reset.hostReply (.load image) = .imageTooLarge) :=
  ⟨fun h => if_neg (by rw [h]; decide), fun h => if_pos (by rw [h]; decide)⟩

/-- Table EV: Reset gives the state of S2. -/
theorem test_host_reset : { State.reset with pc := 0xABC, dt := 5 }.hostEvent .reset = State.reset := rfl

/-- P5, events 4 to 7: the key wait ends at the Step after the KeyWrite the schedule holds for it. -/
theorem test_scheduled_events :
    after (step { State.reset.withFetchWord 16 0xF10A with dt := 3, schedule := [[.tick, .keyWrite 0xB true], [.tick]] })
      (fun s => (s.pc, s.readV 1, s.dt, s.schedule)) = some (0x202, 0x0B, 2, [[.tick]]) := by decide

/-- R125, R126: the Tick that recurs lands before the Step (the timer reads 2, not 3) and is still there after it. -/
theorem test_recurring_tick :
    after (step ({ State.reset with dt := 3, hostTail := .repeats [.tick] }.memWriteBytes 0x200 [0xF1, 0x07]))
      (fun s => (s.readV 1, s.hostTail)) = some (2, .repeats [.tick]) := by decide

/-- The placed word runs first, before a host that recurs or is free acts. -/
theorem test_placed_word_before_host :
    after (stepOn 0x1300 (fun s => { s with dt := 3, hostTail := .repeats [.tick] })) (fun s => (s.pc, s.dt)) =
      some (0x300, 3) ∧
    after (stepOn 0x1300 (fun s => { s with dt := 3, hostTail := .free })) (fun s => (s.pc, s.dt)) =
      some (0x300, 3) := by decide

/-! Witnesses: for every obligation with hypotheses, data that meet them, at the ends of their ranges. -/

/-- After Reset with `I` = 0300 and keys 0 and F pressed; a state with something in it for the witnesses. -/
def busy : State := { State.reset with i := 0x300, keys := (State.reset.keys.set 0 true).set 15 true, sp := 7 }

theorem witness_EveryRegisterIsReadAndWrittenAlike : (14 : RegIdx) ≠ 0 ∧ (14 : RegIdx) ≠ 15 := by decide

theorem witness_DecodeEncodeRoundTrip : (Instr.nop 0xFFFF).wellFormed = true ∧ (Instr.nop 0x0001).wellFormed = true ∧
    (Instr.drw 15 15 15).wellFormed = true ∧ (Instr.jp 0xFFF).wellFormed = true := by decide

theorem witness_EncodedBytesDecodeWithTheRest : (Instr.loadRegs 15).wellFormed = true ∧
    ([] : List Byte).length < 2 ∧ ([0x12] : List Byte).length < 2 := by decide

theorem witness_DecodeFollowsTheOpcodeMap :
    (⟨1, 0xF00F, 0x0000⟩ ∈ opcodeMap ∧ (⟨1, 0xF00F, 0x0000⟩ : OpcodeRow).selects 0x0FF0 = true) ∧
    (⟨34, 0xF0FF, 0xF065⟩ ∈ opcodeMap ∧ (⟨34, 0xF0FF, 0xF065⟩ : OpcodeRow).selects 0xFF65 = true) ∧
    unrecognised 0x0001 = true ∧ unrecognised 0xFFFF = true := by decide

theorem witness_DecodeDependsOnTheKeyAlone : decodeKey 0x00E0 = decodeKey 0x0FF0 ∧ decodeKey 0x5AB7 = decodeKey 0x5000 ∧
    decodeKey 0xF065 = decodeKey 0xFF65 ∧ (decodeWord 0x0001).row = 35 ∧ (decodeWord 0x812F).row = 35 ∧
    (decodeWord 0xE100).row = 35 ∧ (decodeWord 0xFFFF).row = 35 := by decide

/-- Every family, with every low nibble and every low byte. -/
theorem witness_DecodeTakesOperandsFromTheirFields :
    (∀ op n : BitVec 4, ∃ w : Word, w.extractLsb' 12 4 = op ∧ w.extractLsb' 0 4 = n) ∧
    (∀ (op : BitVec 4) (kk : Byte), ∃ w : Word, w.extractLsb' 12 4 = op ∧ w.extractLsb' 0 8 = kk) :=
  ⟨fun op n => ⟨wordXYN op 0 0 n, fieldOp_wordXYN op 0 0 n, fieldN_wordXYN op 0 0 n⟩,
   fun op kk => ⟨wordXKK op 0 kk, fieldOp_wordXKK op 0 kk, fieldKK_wordXKK op 0 kk⟩⟩

theorem witness_StepRunsTheDecodedInstruction :
    (let s := State.reset.withFetchWord 16 0x6A42
     hostQuiet s = true ∧ decode [s.memRead s.pc, s.memRead (s.pc + 1)] = .ok (.ldImm 0xA 0x42, [])) ∧
    { State.reset with schedule := [[.tick]] }.schedule = [.tick] :: [] ∧
    (let s := { State.reset with hostTail := .repeats [.tick] }; s.schedule = [] ∧ s.hostTail = .repeats [.tick]) ∧
    (let s := { State.reset with hostTail := .free }; s.schedule = [] ∧ s.hostTail = .free) := by decide

theorem witness_AddressesReachRamModulo4096 : (0x0000 : Word).toNat % 4096 = (0x1000 : Word).toNat % 4096 ∧
    (0xFFFF : Word).toNat % 4096 = (0x0FFF : Word).toNat % 4096 := by decide

theorem witness_StoresAreSeenByTheNextFetch : 1 ≤ (1 : RegIdx).val ∧ 1 ≤ (15 : RegIdx).val ∧
    { State.reset with i := 0x200 }.i = { State.reset with i := 0x200 }.pc := by decide

theorem witness_PlacedWordIsTheNextInstruction : ramIndex 0x202 ≠ ramIndex State.reset.pc ∧
    ramIndex 0x202 ≠ ramIndex (State.reset.pc + 1) := by decide

theorem witness_CallPushesTheReturnAddress : State.reset.sp ≠ 15 ∧ { State.reset with sp := 14 }.sp ≠ 15 := by decide

theorem witness_RetPopsTheReturnAddress : { State.reset with sp := 1 }.sp ≠ 0 ∧ { State.reset with sp := 15 }.sp ≠ 0 := by decide

theorem witness_CallThenRetRoundTrip : State.reset.sp ≠ 15 ∧ { State.reset with sp := 14 }.sp ≠ 15 := by decide

theorem witness_StackEdgesHaveNoSuccessor : State.reset.sp = 0 ∧ { State.reset with sp := 15 }.sp = 15 := by decide

theorem witness_SkipsAdvanceByTwoMore :
    (0 : KeyIdx).val = (busy.readV 1).toNat % 16 ∧ busy.keyDown 0 = true ∧
    (15 : KeyIdx).val = ((busy.writeV 1 0xFF).readV 1).toNat % 16 ∧ busy.keyDown 15 = true ∧
    (10 : KeyIdx).val = ((busy.writeV 1 0x1A).readV 1).toNat % 16 ∧ busy.keyDown 10 = false := by decide

theorem witness_UnrecognisedWordsLeaveNoTrace : hostQuiet (State.reset.withFetchWord 16 0x8128) = true ∧
    unrecognised (State.reset.withFetchWord 16 0x8128).fetchWord = true := by decide

/-- For the sum, the differences and the shifts: a destination that is not VF, one that is stays out of the clause. -/
theorem witness_AddRegistersGivesSumAndCarry : (14 : RegIdx) ≠ flagReg ∧ (0 : RegIdx) ≠ flagReg := by decide
theorem witness_SubtractionsGiveDifferenceAndNoBorrow : (14 : RegIdx) ≠ flagReg ∧ (0 : RegIdx) ≠ flagReg := by decide
theorem witness_ShiftsByOneGiveTheDroppedBit : (14 : RegIdx) ≠ flagReg ∧ (0 : RegIdx) ≠ flagReg := by decide

theorem witness_OnlyDestinationsAndTheFlagChange :
    (∃ t, exec (.addReg 15 0) State.reset = .next t) ∧ writesFlag (.addReg 15 0) = true ∧
    isDestination (.addReg 15 0) 14 = false ∧
    (∃ t, exec (.loadRegs 14) State.reset = .next t) ∧ isDestination (.loadRegs 14) flagReg = false ∧
    writesFlag (.loadRegs 14) = false := by
  refine ⟨⟨_, rfl⟩, ?_, ?_, ⟨_, rfl⟩, ?_, ?_⟩ <;> decide

theorem witness_TheFlagIsNoHiddenInput :
    (namesVF .ret = false ∧ exec .ret State.reset = .fault .stackUnderflow) ∧
    (namesVF (.addReg 14 0) = false ∧ ∃ t, exec (.addReg 14 0) State.reset = .next t) :=
  ⟨⟨rfl, rfl⟩, rfl, _, rfl⟩

theorem witness_DrawFlagIsCollision : ∃ t, exec (.drw 15 0 15) busy = .next t := ⟨_, rfl⟩

theorem witness_DrawingTwiceRestoresTheScreen : ∃ t u, (14 : RegIdx) ≠ flagReg ∧ (0 : RegIdx) ≠ flagReg ∧
    exec (.drw 14 0 5) State.reset = .next t ∧ exec (.drw 14 0 5) t = .next u :=
  ⟨_, _, by decide, by decide, rfl, rfl⟩

theorem witness_KeyWaitStoresAPressedKey : ∃ k, busy.keyDown k = true := ⟨15, by decide⟩

theorem witness_KeyWaitRepeatsWhileNoKeyIsDown :
    let s := State.reset.withFetchWord 16 0xFF0A
    hostQuiet s = true ∧ decodeWord s.fetchWord = .ldKey 15 ∧ ∀ k, s.keyDown k = false := by decide

theorem witness_TimersFollowTheirRule :
    (∃ t, exec (.ldST 0) State.reset = .next t) ∧ (∀ x, Instr.ldST 0 ≠ .ldDT x) ∧
    (∃ t, exec (.ldDT 0) State.reset = .next t) ∧ (∀ x, Instr.ldDT 0 ≠ .ldST x) ∧
    HostEvent.load [] ≠ .tick ∧ HostEvent.load [] ≠ .reset ∧ exec .ret State.reset = .fault .stackUnderflow :=
  ⟨⟨_, rfl⟩, by decide, ⟨_, rfl⟩, by decide, by decide, by decide, rfl⟩

theorem witness_BcdStoreWritesThreeDigits : ramIndex 0x303 ≠ ramIndex busy.i ∧ ramIndex 0x303 ≠ ramIndex (busy.i + 1) ∧
    ramIndex 0x303 ≠ ramIndex (busy.i + 2) := by decide

theorem witness_BlockStoreWritesV0ToVx : (0 : RegIdx) ≤ 0 ∧ (15 : RegIdx) ≤ 15 ∧
    ∀ r : RegIdx, r ≤ 15 → ramIndex 0x310 ≠ ramIndex (busy.i + BitVec.ofNat 16 r.val) := by decide

theorem witness_BlockLoadReadsV0ToVx : (0 : RegIdx) ≤ 0 ∧ (14 : RegIdx) ≤ 14 ∧ (14 : RegIdx) < 15 := by decide

theorem witness_BlockStoreThenLoadRestores : ∃ t, exec (.storeRegs 15) busy = .next t := ⟨_, rfl⟩

theorem witness_InstructionsWriteOnlyWhatTheTableLets :
    (∃ t, exec (.addReg 1 2) State.reset = .next t) ∧ writesPc (.addReg 1 2) = false ∧ writesI (.addReg 1 2) = false ∧
    writesDisplay (.addReg 1 2) = false ∧ writesRam (.addReg 1 2) = false ∧ drawsFree (.addReg 1 2) = false ∧
    (∃ t, exec (.drw 1 2 3) State.reset = .next t) ∧ writesDisplay (.drw 1 2 3) = true :=
  ⟨⟨_, rfl⟩, rfl, rfl, rfl, rfl, rfl, ⟨_, rfl⟩, rfl⟩

theorem witness_StepKeepsMemoryCanonical :
    StateInv (State.reset.withFetchWord 16 0xF033) ∧ ∃ t, step (State.reset.withFetchWord 16 0xF033) = .next t := by
  refine ⟨?_, _, rfl⟩
  unfold StateInv
  decide

theorem witness_SafeRunsNeverMeetTheStackEdges : SafeRun 1 (State.reset.withFetchWord 16 0x1200) := ⟨_, rfl⟩

theorem witness_SoundTimerAndRedrawNeverFlowBack :
    SameButOutputs State.reset { State.reset with st := 0xFF, redraw := true } := rfl

theorem witness_FinishedProgramsStay : finished (State.reset.withFetchWord 16 0x1200) = true ∧
    hostQuiet (State.reset.withFetchWord 16 0x1200) = true := by decide

theorem witness_FinishedProgramsStayUnderHostEvents :
    (let s := { State.reset.withFetchWord 16 0x1200 with
       schedule := [[.tick, .keyWrite 15 true], []], hostTail := .repeats [.tick, .redrawClear] }
     finished s = true ∧ HostKeepsProgram s) ∧
    (State.reset.withFetchWord 16 0x1200).hostTail ≠ .free := by
  simp only [HostKeepsProgram]
  decide

theorem witness_HostTurnsMayRecurForEver :
    let s := { State.reset with hostTail := .repeats [.tick] }
    s.schedule = [] ∧ s.hostTail = .repeats [.tick] := by decide

theorem witness_KeyWriteSetsOneKey : (0 : KeyIdx) ≠ 15 ∧ ∃ t, exec (.skp 0) busy = .next t := ⟨by decide, _, rfl⟩

theorem witness_ReadingTheFrameChangesNothing : HostEvent.load [0xFF] ≠ .reset ∧ HostEvent.redrawClear ≠ .reset := by decide

theorem witness_LoadCopiesTheImageAt200 :
    (List.replicate 3584 (0xAA : Byte)).length ≤ 3584 ∧ ([] : List Byte).length ≤ 3584 ∧
    (0x01FF : Word).toNat % 4096 < 0x200 ∧ 0x200 + ([] : List Byte).length ≤ (0x0200 : Word).toNat % 4096 ∧
    0x200 + (List.replicate 3583 (0xAA : Byte)).length ≤ (0x0FFF : Word).toNat % 4096 := by
  rw [List.length_replicate, List.length_replicate]
  decide

theorem witness_TooLargeImagesChangeNothing : ∃ image : List Byte, 4096 - 0x200 < image.length ∧
    State.reset.hostReply (.load image) = .imageTooLarge := by
  have h : (List.replicate 3585 (0xAA : Byte)).length = 3585 := List.length_replicate
  generalize List.replicate 3585 (0xAA : Byte) = image at h
  exact ⟨image, by rw [h]; decide, if_pos (by rw [h]; decide)⟩

end Sys2Proof.Tests
end

section
/-! PROOFS. How an instruction's outcome follows a change of the state it starts from: the outcome with its next
state changed, and the rules for the instructions with cases, for stores, skips and sprites. -/

namespace Sys2Proof.Machine

variable {f : State → State} {s : State}

/-- The outcome with its next state, if there is one, changed by `f`. -/
def mapNext (f : State → State) : Host.Outcome State Fault Refusal → Host.Outcome State Fault Refusal
  | .next s => .next (f s)
  | .fault r => .fault r
  | .refused r => .refused r

@[simp] theorem mapNext_next (f : State → State) (s : State) : mapNext f (.next s) = .next (f s) := rfl
@[simp] theorem mapNext_fault (f : State → State) (r : Fault) : mapNext f (.fault r) = .fault r := rfl

theorem exec_ret_map (hsp : (f s).sp = s.sp) (hpop : (f s).popPc = f s.popPc) :
    exec .ret (f s) = mapNext f (exec .ret s) := by
  by_cases hs : s.sp = 0
  · rw [exec_ret_of_eq s hs, exec_ret_of_eq (f s) (hsp.trans hs), mapNext_fault]
  · rw [exec_ret_of_ne s hs, exec_ret_of_ne (f s) (hsp ▸ hs), hpop, mapNext_next]

theorem exec_call_map (nnn : BitVec 12) (hsp : (f s).sp = s.sp)
    (hpush : ((f s).push (f s).pc).setPc (zextAddr nnn) = f ((s.push s.pc).setPc (zextAddr nnn))) :
    exec (.call nnn) (f s) = mapNext f (exec (.call nnn) s) := by
  by_cases hs : s.sp = 15
  · rw [exec_call_of_eq s nnn hs, exec_call_of_eq (f s) nnn (hsp.trans hs), mapNext_fault]
  · rw [exec_call_of_ne s nnn hs, exec_call_of_ne (f s) nnn (hsp ▸ hs), hpush, mapNext_next]

theorem exec_ldKey_map (x : RegIdx) (hkeys : (f s).keys = s.keys) (hfree : (f s).freeDraws = s.freeDraws)
    (hwait : (f s).setPc ((f s).pc - 2) = f (s.setPc (s.pc - 2)))
    (hkey : ∀ b, (f s).countDraw.writeV x b = f (s.countDraw.writeV x b)) :
    exec (.ldKey x) (f s) = mapNext f (exec (.ldKey x) s) := by
  have hp : (f s).pressedKeys = s.pressedKeys := State.pressedKeys_congr hkeys
  cases hk : s.pressedKeys with
  | nil => rw [exec_ldKey_of_nil s x hk, exec_ldKey_of_nil (f s) x (hp.trans hk), hwait, mapNext_next]
  | cons k ks =>
    have hc : (f s).chosenKey k ks = s.chosenKey k ks := by simp only [State.chosenKey, hfree]
    rw [exec_ldKey_of_cons s x hk, exec_ldKey_of_cons (f s) x (hp.trans hk), hc, hkey, mapNext_next]

/-! A run whose first step is known. -/

theorem core_run_of_next (n : Nat) {s t : State} (h : step s = .next t) : core.run (n + 1) s = core.run n t := by
  have h' : core.step s = .next t := h
  simp only [Host.Core.run, h']

theorem core_run_of_fault (n : Nat) {s : State} {r : Fault} (h : step s = .fault r) :
    core.run (n + 1) s = .fault r := by
  have h' : core.step s = .fault r := h
  simp only [Host.Core.run, h']

theorem core_run_of_refused (n : Nat) {s : State} {r : Refusal} (h : step s = .refused r) :
    core.run (n + 1) s = .refused r := by
  have h' : core.step s = .refused r := h
  simp only [Host.Core.run, h']

/-- A change of the state that no store of one byte notices is noticed by no store of several. -/
theorem State.memWriteBytes_comm (h : ∀ s a b, (f s).memWrite a b = f (s.memWrite a b)) (s : State) (a : Word)
    (bs : List Byte) : (f s).memWriteBytes a bs = f (s.memWriteBytes a bs) := by
  induction bs generalizing s a with
  | nil => rfl
  | cons b bs ih =>
    calc ((f s).memWrite a b).memWriteBytes (a + 1) bs
        = (f (s.memWrite a b)).memWriteBytes (a + 1) bs := by rw [h]
      _ = f ((s.memWrite a b).memWriteBytes (a + 1) bs) := ih (s.memWrite a b) (a + 1)

/-- A skip is the same under a change of the state that leaves `pc` and that no write of `pc` notices. -/
theorem State.skipIf_comm (hpc : (f s).pc = s.pc) (h : ∀ a, (f s).setPc a = f (s.setPc a)) (c : Bool) :
    (f s).skipIf c = f (s.skipIf c) := by
  cases c with
  | false => rfl
  | true =>
    calc (f s).setPc ((f s).pc + 2) = f (s.setPc (s.pc + 2)) := by rw [hpc, h]

/-- What DRW draws depends on its two coordinate registers, `I`, RAM and the framebuffer alone. -/
theorem State.drawn_congr {s t : State} {x y : RegIdx} (hx : t.readV x = s.readV x) (hy : t.readV y = s.readV y)
    (hi : t.i = s.i) (hm : t.mem = s.mem) (hfb : t.fb = s.fb) (n : BitVec 4) : t.drawn x y n = s.drawn x y n := by
  have operands : ∀ u : State, u.drawOperands = u := fun _ => rfl
  simp only [State.drawn, operands, hx, hy, hi, hfb, State.memReadBytes_congr hm]

end Sys2Proof.Machine
end

section
/-! PROOFS. The sound timer and the redraw flag are outputs (10_state sections 7 and 8): O48. -/

namespace Sys2Proof.Machine

open Sys2Proof.Claims

/-- The state with another sound timer and another redraw flag. -/
def State.withOutputs (s : State) (st : Byte) (redraw : Bool) : State := { s with st := st, redraw := redraw }

theorem sameButOutputs_withOutputs (s : State) (st : Byte) (redraw : Bool) :
    SameButOutputs s (s.withOutputs st redraw) := rfl

/-- An instruction answers alike whatever the two outputs hold. The sound timer it leaves is the one it found,
but for LD ST, Vx; the redraw flag it leaves is the one it found, unless it draws. -/
theorem exec_withOutputs (i : Instr) (s : State) (st : Byte) (redraw : Bool) :
    ∃ st', exec i (s.withOutputs st redraw) =
      mapNext (·.withOutputs st' (cond (writesDisplay i) true redraw)) (exec i s) := by
  have skip : ∀ c, (s.withOutputs st redraw).skipIf c = (s.skipIf c).withOutputs st redraw :=
    State.skipIf_comm (f := (·.withOutputs st redraw)) rfl fun _ => rfl
  have store : ∀ bs, (s.withOutputs st redraw).memWriteBytes s.i bs =
      (s.memWriteBytes s.i bs).withOutputs st redraw :=
    State.memWriteBytes_comm (f := (·.withOutputs st redraw)) (fun _ _ _ => rfl) s s.i
  cases i
  case ldST x => exact ⟨s.readV x, rfl⟩
  all_goals refine ⟨st, ?_⟩
  case ret => exact exec_ret_map (f := (·.withOutputs st redraw)) rfl rfl
  case call nnn => exact exec_call_map (f := (·.withOutputs st redraw)) nnn rfl rfl
  case ldKey x => exact exec_ldKey_map (f := (·.withOutputs st redraw)) x rfl rfl rfl fun _ => rfl
  case seImm | sneImm | seReg | sneReg | skp | sknp => exact congrArg Host.Outcome.next (skip _)
  case drw x y n =>
    have hd : (s.withOutputs st redraw).drawn x y n = s.drawn x y n :=
      State.drawn_congr (s := s) (t := s.withOutputs st redraw) rfl rfl rfl rfl rfl n
    rw [exec_drw, exec_drw, hd]
    rfl
  case ldB x => exact congrArg Host.Outcome.next (store _)
  case storeRegs x =>
    exact congrArg (fun t : State => Host.Outcome.next (t.setI (s.i + BitVec.ofNat 16 (x.val + 1)))) (store _)
  all_goals rfl

/-- No host event lets the two outputs flow into the rest of the state. -/
theorem sameButOutputs_hostEvent {s t : State} (h : SameButOutputs s t) (e : HostEvent) :
    SameButOutputs (s.hostEvent e) (t.hostEvent e) := by
  rw [h]
  cases e
  case load image =>
    simp only [State.hostEvent, State.load]
    split
    · rfl
    · have hstore := State.memWriteBytes_comm (f := (·.withOutputs t.st t.redraw)) (fun _ _ _ => rfl) s
        Config.progBase image
      exact hstore ▸ sameButOutputs_withOutputs (s.memWriteBytes Config.progBase image) t.st t.redraw
  all_goals rfl

theorem sameButOutputs_hostEvents {s t : State} (h : SameButOutputs s t) (es : List HostEvent) :
    SameButOutputs (s.hostEvents es) (t.hostEvents es) := by
  induction es generalizing s t with
  | nil => exact h
  | cons e es ih => exact ih (sameButOutputs_hostEvent h e)

/-- Both states meet the same host, so its turn keeps them alike. -/
theorem sameButOutputs_hostTurn {s t : State} (h : SameButOutputs s t) : SameButOutputs s.hostTurn t.hostTurn := by
  have hsch : t.schedule = s.schedule := by rw [h]
  have htail : t.hostTail = s.hostTail := by rw [h]
  have hfree : t.freeDraws = s.freeDraws := by rw [h]
  cases hs : s.schedule with
  | cons turn rest =>
    rw [s.hostTurn_of_cons hs, t.hostTurn_of_cons (hsch.trans hs)]
    refine sameButOutputs_hostEvents ?_ turn
    rw [h]; rfl
  | nil =>
    cases ht : s.hostTail with
    | repeats turn =>
      rw [s.hostTurn_of_repeats hs ht, t.hostTurn_of_repeats (hsch.trans hs) (htail.trans ht)]
      exact sameButOutputs_hostEvents h turn
    | free =>
      rw [s.hostTurn_of_free hs ht, t.hostTurn_of_free (hsch.trans hs) (htail.trans ht), hfree]
      refine sameButOutputs_hostEvents ?_ _
      rw [h]; rfl

theorem sameOutcomeButOutputs_mapNext (o : Host.Outcome State Fault Refusal) (st : Byte) (redraw : Bool) :
    SameOutcomeButOutputs o (mapNext (·.withOutputs st redraw) o) := by
  cases o with
  | next s => exact sameButOutputs_withOutputs s st redraw
  | fault r => rfl
  | refused r => rfl

theorem sameButOutputs_exec {s t : State} (h : SameButOutputs s t) (i : Instr) :
    SameOutcomeButOutputs (exec i s) (exec i t) := by
  obtain ⟨st, he⟩ := exec_withOutputs i s t.st t.redraw
  have ht : t = s.withOutputs t.st t.redraw := h
  rw [ht, he]
  exact sameOutcomeButOutputs_mapNext _ st _

/-- One step, the host's turn included, keeps two states alike but for the outputs, or stops both alike. -/
theorem sameButOutputs_step {s t : State} (h : SameButOutputs s t) :
    SameOutcomeButOutputs (step s) (step t) := by
  have hturn := sameButOutputs_hostTurn h
  have hword : t.hostTurn.fetchWord = s.hostTurn.fetchWord := by rw [hturn]; rfl
  have hadv : SameButOutputs s.hostTurn.advance t.hostTurn.advance := by rw [hturn]; rfl
  rw [step_eq, step_eq, hword]
  exact sameButOutputs_exec hadv _

theorem sameButOutputs_run (n : Nat) {s t : State} (h : SameButOutputs s t) :
    SameOutcomeButOutputs (core.run n s) (core.run n t) := by
  induction n generalizing s t with
  | zero => exact h
  | succ n ih =>
    have hstep := sameButOutputs_step h
    match hs : step s, ht : step t, hstep with
    | .next _, .next _, hnext =>
      rw [core_run_of_next n hs, core_run_of_next n ht]
      exact ih hnext
    | .fault _, .fault _, hfault =>
      rw [core_run_of_fault n hs, core_run_of_fault n ht]
      exact hfault
    | .refused _, .refused _, hrefused =>
      rw [core_run_of_refused n hs, core_run_of_refused n ht]
      exact hrefused

end Sys2Proof.Machine

namespace Sys2Proof.Proofs

open Sys2Proof.Machine

/-- Settles O48, by induction on the number of steps: one step, whatever the host does in its turn, keeps two
states alike but for the sound timer and the redraw flag, or stops both alike. -/
theorem soundTimerAndRedrawNeverFlowBack : Obligations.SoundTimerAndRedrawNeverFlowBack :=
  fun n _ _ h => sameButOutputs_run n h

end Sys2Proof.Proofs
end

section
/-! PROOFS. What each instruction may write (10_state sections 2, 7 and 11): O44, O30, O38, O3. A frame says that a
state differs from another at most where an instruction may write; each state operation has one rule that keeps
it, and an instruction's frame is put together from the rules of the operations it performs. -/

namespace Sys2Proof.Machine

open Sys2Proof.Claims

/-- `t` differs from `s` at most where the instruction may write. -/
structure InstrFrame (i : Instr) (s t : State) : Prop where
  regs : ∀ r, isDestination i r = false → (r = flagReg → writesFlag i = false) → t.readV r = s.readV r
  index : writesI i = false → t.i = s.i
  pc : writesPc i = false → t.pc = s.pc
  stack : (∀ nnn, i ≠ .call nnn) → t.stack = s.stack
  sp : (∀ nnn, i ≠ .call nnn) → i ≠ .ret → t.sp = s.sp
  dt : (∀ x, i ≠ .ldDT x) → t.dt = s.dt
  st : (∀ x, i ≠ .ldST x) → t.st = s.st
  display : writesDisplay i = false → t.fb = s.fb ∧ t.redraw = s.redraw
  keys : t.keys = s.keys
  ram : writesRam i = false → ∀ a, t.memRead a = s.memRead a
  freeDraws : drawsFree i = false → t.freeDraws = s.freeDraws
  schedule : t.schedule = s.schedule
  hostTail : t.hostTail = s.hostTail

namespace InstrFrame

variable {i : Instr} {s t : State}

theorem refl (i : Instr) (s : State) : InstrFrame i s s where
  regs _ _ _ := rfl
  index _ := rfl
  pc _ := rfl
  stack _ := rfl
  sp _ _ := rfl
  dt _ := rfl
  st _ := rfl
  display _ := ⟨rfl, rfl⟩
  keys := rfl
  ram _ _ := rfl
  freeDraws _ := rfl
  schedule := rfl
  hostTail := rfl

/-- Another register file stays within the frame when it agrees outside the registers the instruction may write. -/
theorem withRegs (h : InstrFrame i s t) (w : Vector Byte 16)
    (hw : ∀ r, isDestination i r = false → (r = flagReg → writesFlag i = false) →
      State.readV { t with v := w } r = t.readV r) : InstrFrame i s { t with v := w } :=
  { h with regs := fun r hd hf => (hw r hd hf).trans (h.regs r hd hf) }

theorem writeV (h : InstrFrame i s t) {x : RegIdx}
    (hx : isDestination i x = true ∨ x = flagReg ∧ writesFlag i = true) (b : Byte) :
    InstrFrame i s (t.writeV x b) := by
  refine h.withRegs (t.writeV x b).v fun r hd hf => t.readV_writeV_other b ?_
  rintro rfl
  rcases hx with hx | ⟨hx, hw⟩
  · simp [hx] at hd
  · simp [hf hx] at hw

theorem writeDestination (h : InstrFrame i s t) {x : RegIdx} (hx : isDestination i x = true) (b : Byte) :
    InstrFrame i s (t.writeV x b) := h.writeV (.inl hx) b

theorem writeFlag (h : InstrFrame i s t) (hw : writesFlag i = true) (b : Byte) :
    InstrFrame i s (t.writeV flagReg b) := h.writeV (.inr ⟨rfl, hw⟩) b

theorem writeResultAndFlag (h : InstrFrame i s t) {x : RegIdx} (hx : isDestination i x = true)
    (hw : writesFlag i = true) (r : Byte) (g : Bool) : InstrFrame i s (t.writeResultAndFlag x r g) :=
  (h.writeDestination hx r).writeFlag hw (flagByte g)

theorem loadBlock {x : RegIdx} (h : InstrFrame (.loadRegs x) s t) (a : Word) :
    InstrFrame (.loadRegs x) s (t.loadBlock x a) := by
  refine h.withRegs (t.loadBlock x a).v fun r hd _ => ?_
  have hr : ¬ r ≤ x := of_decide_eq_false hd
  exact (t.readV_loadBlock x r a).trans (if_neg hr)

theorem setI (h : InstrFrame i s t) (hw : writesI i = true) (a : Word) : InstrFrame i s (t.setI a) :=
  { h with index := fun hn => by simp [hw] at hn }

theorem setPc (h : InstrFrame i s t) (hw : writesPc i = true) (a : Word) : InstrFrame i s (t.setPc a) :=
  { h with pc := fun hn => by simp [hw] at hn }

theorem skipIf (h : InstrFrame i s t) (hw : writesPc i = true) (c : Bool) : InstrFrame i s (t.skipIf c) := by
  cases c with
  | false => exact h
  | true => exact h.setPc hw (t.pc + 2)

theorem push {nnn : BitVec 12} (h : InstrFrame (.call nnn) s t) (a : Word) : InstrFrame (.call nnn) s (t.push a) :=
  { h with
    stack := fun hn => absurd rfl (hn nnn)
    sp := fun hn => absurd rfl (hn nnn) }

theorem popPc (h : InstrFrame .ret s t) : InstrFrame .ret s t.popPc :=
  { h with
    sp := fun _ hn => absurd rfl hn
    pc := fun hn => Bool.noConfusion hn }

theorem setDT {x : RegIdx} (h : InstrFrame (.ldDT x) s t) (b : Byte) : InstrFrame (.ldDT x) s (t.setDT b) :=
  { h with dt := fun hn => absurd rfl (hn x) }

theorem setST {x : RegIdx} (h : InstrFrame (.ldST x) s t) (b : Byte) : InstrFrame (.ldST x) s (t.setST b) :=
  { h with st := fun hn => absurd rfl (hn x) }

theorem present (h : InstrFrame i s t) (hw : writesDisplay i = true) (fb : Framebuffer) :
    InstrFrame i s (t.present fb) :=
  { h with display := fun hn => by simp [hw] at hn }

theorem countDraw (h : InstrFrame i s t) (hw : drawsFree i = true) : InstrFrame i s t.countDraw :=
  { h with freeDraws := fun hn => by simp [hw] at hn }

theorem memWriteBytes (h : InstrFrame i s t) (hw : writesRam i = true) (a : Word) (bs : List Byte) :
    InstrFrame i s (t.memWriteBytes a bs) := by
  rw [State.memWriteBytes_frame]
  exact { h with ram := fun hn => by simp [hw] at hn }

end InstrFrame

/-- Every instruction that answers a next state stays within its frame. -/
theorem exec_frame {i : Instr} {s t : State} (h : exec i s = .next t) : InstrFrame i s t := by
  have start := InstrFrame.refl i s
  refine exec_cases h ?ret ?call ?wait ?key ?other
  case ret => rintro rfl _ rfl; exact start.popPc
  case call => rintro nnn rfl _ rfl; exact (start.push s.pc).setPc rfl (zextAddr nnn)
  case wait => rintro x rfl _ rfl; exact start.setPc rfl (s.pc - 2)
  case key => rintro x k ks rfl _ rfl; exact (start.countDraw rfl).writeDestination (beq_self_eq_true x) _
  case other =>
    intro hret hcall hkey
    cases i
    case ret => exact absurd rfl hret
    case call nnn => exact absurd rfl (hcall nnn)
    case ldKey x => exact absurd rfl (hkey x)
    all_goals cases h
    case nop => exact start
    case cls => exact start.present rfl _
    case drw => exact (start.present rfl _).writeFlag rfl _
    case jp | jpV0 => exact start.setPc rfl _
    case seImm | sneImm | seReg | sneReg | skp | sknp => exact start.skipIf rfl _
    case ldImm x _ | addImm x _ | ldReg x _ | orReg x _ | andReg x _ | xorReg x _ | ldFromDT x =>
      exact start.writeDestination (beq_self_eq_true x) _
    case addReg x _ | subReg x _ | subnReg x _ | shr x _ | shl x _ =>
      exact start.writeResultAndFlag (beq_self_eq_true x) rfl _ _
    case rnd x kk => exact (start.countDraw rfl).writeDestination (beq_self_eq_true x) _
    case ldI | addI | ldF => exact start.setI rfl _
    case ldDT => exact start.setDT _
    case ldST => exact start.setST _
    case ldB => exact start.memWriteBytes rfl _ _
    case storeRegs => exact (start.memWriteBytes rfl _ _).setI rfl _
    case loadRegs => exact (start.loadBlock _).setI rfl _

/-- The six flag writers leave a flag byte in VF. -/
theorem exec_flag {i : Instr} {s t : State} (h : exec i s = .next t) (hw : writesFlag i = true) :
    ∃ g, t.readV flagReg = flagByte g := by
  cases i
  case addReg | subReg | subnReg | shr | shl => cases h; exact ⟨_, State.readV_writeResultAndFlag_flag _ _ _ _⟩
  case drw => cases h; exact ⟨_, State.readV_writeV_same _ _ _⟩
  all_goals exact Bool.noConfusion hw

/-- The redraw flag is raised by an instruction that draws and kept by every other. -/
theorem exec_redraw {i : Instr} {s t : State} (h : exec i s = .next t) :
    t.redraw = cond (writesDisplay i) true s.redraw := by
  cases hw : writesDisplay i with
  | false => exact ((exec_frame h).display hw).2
  | true =>
    cases i
    case cls | drw => cases h; rfl
    all_goals exact Bool.noConfusion hw

/-- No instruction's outcome depends on the sound timer, which is all that differs afterwards. -/
theorem exec_withST (i : Instr) (s : State) (b : Byte) :
    (∀ f, exec i s = .fault f → exec i { s with st := b } = .fault f) ∧
    ∀ t, exec i s = .next t → ∃ u, exec i { s with st := b } = .next u ∧ u = { t with st := u.st } := by
  obtain ⟨st, he⟩ := exec_withOutputs i s b s.redraw
  have hb : { s with st := b } = s.withOutputs b s.redraw := rfl
  rw [hb, he]
  refine ⟨fun f h => by rw [h, mapNext_fault], fun t h => ⟨_, by rw [h, mapNext_next], ?_⟩⟩
  rw [← exec_redraw h]
  rfl

theorem hostEvent_timers (s : State) {e : HostEvent} (ht : e ≠ .tick) (hr : e ≠ .reset) :
    (s.hostEvent e).dt = s.dt ∧ (s.hostEvent e).st = s.st := by
  cases e
  case tick => exact absurd rfl ht
  case reset => exact absurd rfl hr
  case load image =>
    simp only [State.hostEvent, State.load]
    split <;> simp
  all_goals exact ⟨rfl, rfl⟩

theorem onlyReg_writeV (s : State) (x : RegIdx) (b : Byte) : OnlyReg x s (s.writeV x b) :=
  ⟨rfl, fun _ hr => s.readV_writeV_other b hr⟩

theorem reset_readV (x : RegIdx) : State.reset.readV x = 0 := by
  simp [State.readV, State.reset]

end Sys2Proof.Machine

namespace Sys2Proof.Proofs

open Sys2Proof.Machine

/-- Settles O44: each clause is one field of the instruction's frame. -/
theorem instructionsWriteOnlyWhatTheTableLets : Obligations.InstructionsWriteOnlyWhatTheTableLets := by
  intro i s t h
  have frame := exec_frame h
  exact ⟨frame.keys, frame.schedule, frame.hostTail, frame.stack, frame.sp, frame.pc, frame.index, frame.dt, frame.st,
    frame.display, fun hw => by rw [exec_redraw h, hw, cond_true], frame.ram, frame.freeDraws⟩

/-- Settles O30: the flag writers end with a flag byte in VF, and the frame keeps every other register. -/
theorem onlyDestinationsAndTheFlagChange : Obligations.OnlyDestinationsAndTheFlagChange := by
  intro i s t h
  refine ⟨fun hw => ?_, (exec_frame h).regs⟩
  obtain ⟨g, hg⟩ := exec_flag h hw
  rw [hg]
  exact flagByte_eq_zero_or_one g

/-- Settles O38, from the frame of the instructions, the blindness to the sound timer and the host's events. -/
theorem timersFollowTheirRule : Obligations.TimersFollowTheirRule := by
  refine ⟨⟨rfl, rfl⟩, fun x s => ⟨_, exec_ldDT s x, rfl⟩, fun x s => ⟨_, exec_ldST s x, rfl⟩, fun x s => ?ldFromDT,
    fun i s t h => ⟨(exec_frame h).dt, (exec_frame h).st⟩, fun s => ⟨countDown_toNat s.dt, countDown_toNat s.st⟩,
    fun s e ht hr => hostEvent_timers s ht hr, exec_withST, fun s => ⟨rfl, rfl⟩⟩
  case ldFromDT => exact ⟨_, exec_ldFromDT s x, s.readV_writeV_same x s.dt, onlyReg_writeV s x s.dt⟩

/-- Settles O3: both writes are read back, and neither reaches a third register. -/
theorem everyRegisterIsReadAndWrittenAlike : Obligations.EveryRegisterIsReadAndWrittenAlike := by
  refine ⟨reset_readV, fun x y kk s => ⟨_, _, exec_ldImm s x kk, exec_ldReg (s.writeV x kk) y x, ?_, ?_, ?_⟩⟩
  · simp [State.readV_writeV]
  · simp
  · intro r hx hy
    rw [State.readV_writeV_other _ _ hy, State.readV_writeV_other _ _ hx]

end Sys2Proof.Proofs
end

section
/-! PROOFS. VF is no hidden input (10_state section 2): O31. An instruction that does not name VF answers alike from
two states that differ in VF alone. -/

namespace Sys2Proof.Machine

open Sys2Proof.Claims

theorem State.writeV_writeV_same (s : State) (x : RegIdx) (a b : Byte) :
    (s.writeV x a).writeV x b = s.writeV x b := by
  simp [State.writeV]

theorem State.writeV_comm (s : State) {x y : RegIdx} (h : x ≠ y) (a b : Byte) :
    (s.writeV x a).writeV y b = (s.writeV y b).writeV x a := by
  have hxy : x.val ≠ y.val := fun hv => h (Fin.ext hv)
  simp only [State.writeV, Vector.set_comm a b hxy]

/-- A result with its flag overwrites whatever VF held before. -/
theorem State.writeResultAndFlag_writeFlag (s : State) {x : RegIdx} (hx : x ≠ flagReg) (b r : Byte) (g : Bool) :
    (s.writeV flagReg b).writeResultAndFlag x r g = (s.writeResultAndFlag x r g).writeV flagReg (flagByte g) := by
  simp only [State.writeResultAndFlag_eq, State.writeV_writeV_same, State.writeV_comm _ hx.symm]

theorem lt_flagReg {x : RegIdx} (hx : x ≠ flagReg) : x < flagReg :=
  lt_of_le_of_ne (Fin.le_last x) hx

/-- A block that ends below VF does not read it. -/
theorem State.readBlock_writeFlag (s : State) {x : RegIdx} (hx : x ≠ flagReg) (b : Byte) :
    (s.writeV flagReg b).readBlock x = s.readBlock x := by
  refine List.ext_getElem (by simp) fun j h _ => ?_
  have hj : j < x.val + 1 := by simpa using h
  have hlt : x.val < 15 := lt_flagReg hx
  rw [State.readBlock_getElem, State.readBlock_getElem]
  refine s.readV_writeV_other b fun he => ?_
  have : j = 15 := congrArg Fin.val he
  omega

theorem State.ext_readV {s t : State} (hrest : t = { s with v := t.v }) (h : ∀ r, t.readV r = s.readV r) : t = s := by
  have hv : t.v = s.v := Vector.ext fun r hr => h ⟨r, hr⟩
  rw [hrest, hv]

/-- A block loaded below VF leaves it alone. -/
theorem State.loadBlock_writeFlag (s : State) {x : RegIdx} (hx : x ≠ flagReg) (b : Byte) (a : Word) :
    (s.writeV flagReg b).loadBlock x a = (s.loadBlock x a).writeV flagReg b := by
  refine State.ext_readV rfl fun r => ?_
  rw [State.readV_loadBlock, State.readV_writeV, State.readV_writeV, State.readV_loadBlock]
  by_cases hr : r = flagReg
  · have hle : ¬ r ≤ x := hr ▸ not_le.2 (lt_flagReg hx)
    rw [if_neg hle, if_pos hr, if_pos hr]
  · rw [if_neg hr, if_neg hr]
    rfl

/-- An instruction that does not name VF answers alike whatever VF holds: the next states differ in VF alone. -/
theorem exec_writeFlag {i : Instr} (hn : namesVF i = false) (s : State) (b : Byte) :
    ∃ c, exec i (s.writeV flagReg b) = mapNext (·.writeV flagReg c) (exec i s) := by
  have read : ∀ {x}, x ≠ flagReg → (s.writeV flagReg b).readV x = s.readV x := s.readV_writeV_other b
  have write : ∀ (t : State) {x}, x ≠ flagReg → ∀ a,
      (t.writeV flagReg b).writeV x a = (t.writeV x a).writeV flagReg b := fun t _ hx => t.writeV_comm hx.symm b
  have skip : ∀ c, (s.writeV flagReg b).skipIf c = (s.skipIf c).writeV flagReg b :=
    State.skipIf_comm (f := (·.writeV flagReg b)) rfl fun _ => rfl
  have store : ∀ bs, (s.writeV flagReg b).memWriteBytes s.i bs = (s.memWriteBytes s.i bs).writeV flagReg b :=
    State.memWriteBytes_comm (f := (·.writeV flagReg b)) (fun _ _ _ => rfl) s s.i
  cases i
  case addReg x y | subReg x y | subnReg x y | shr x y | shl x y =>
    obtain ⟨hx, hy⟩ : x ≠ flagReg ∧ y ≠ flagReg := by simpa [namesVF] using hn
    simp only [exec_addReg, exec_subReg, exec_subnReg, exec_shr, exec_shl, read hx, read hy]
    exact ⟨_, congrArg Host.Outcome.next (s.writeResultAndFlag_writeFlag hx b _ _)⟩
  case drw x y n =>
    obtain ⟨hx, hy⟩ : x ≠ flagReg ∧ y ≠ flagReg := by simpa [namesVF] using hn
    have hd : (s.writeV flagReg b).drawn x y n = s.drawn x y n := State.drawn_congr (read hx) (read hy) rfl rfl rfl n
    rw [exec_drw, exec_drw, hd]
    refine ⟨flagByte (s.drawn x y n).2, congrArg Host.Outcome.next ?_⟩
    exact (State.writeV_writeV_same (s.present _) _ _ _).trans (State.writeV_writeV_same (s.present _) _ _ _).symm
  all_goals refine ⟨b, ?_⟩
  case cls | jp | ldI | nop => rfl
  case ret => exact exec_ret_map (f := (·.writeV flagReg b)) rfl rfl
  case call nnn => exact exec_call_map (f := (·.writeV flagReg b)) nnn rfl rfl
  case jpV0 nnn =>
    rw [exec_jpV0, read (by decide)]
    rfl
  case seReg x y | sneReg x y =>
    obtain ⟨hx, hy⟩ : x ≠ flagReg ∧ y ≠ flagReg := by simpa [namesVF] using hn
    simp only [exec_seReg, exec_sneReg, read hx, read hy]
    exact congrArg Host.Outcome.next (skip _)
  case ldReg x y | orReg x y | andReg x y | xorReg x y =>
    obtain ⟨hx, hy⟩ : x ≠ flagReg ∧ y ≠ flagReg := by simpa [namesVF] using hn
    simp only [exec_ldReg, exec_orReg, exec_andReg, exec_xorReg, read hx, read hy]
    exact congrArg Host.Outcome.next (write s hx _)
  all_goals have hx := beq_eq_false_iff_ne.1 hn
  case ldKey x =>
    exact exec_ldKey_map (f := (·.writeV flagReg b)) x rfl rfl rfl (write s.countDraw hx)
  case seImm x _ | sneImm x _ | skp x | sknp x =>
    simp only [exec_seImm, exec_sneImm, exec_skp, exec_sknp, read hx]
    exact congrArg Host.Outcome.next (skip _)
  case ldImm | ldFromDT => exact congrArg Host.Outcome.next (write s hx _)
  case addImm x kk =>
    rw [exec_addImm, read hx]
    exact congrArg Host.Outcome.next (write s hx _)
  case rnd => exact congrArg Host.Outcome.next (write s.countDraw hx _)
  case ldDT x | ldST x | addI x | ldF x =>
    simp only [exec_ldDT, exec_ldST, exec_addI, exec_ldF, read hx]
    rfl
  case ldB x =>
    rw [exec_ldB, read hx]
    exact congrArg Host.Outcome.next (store _)
  case storeRegs x =>
    rw [exec_storeRegs, s.readBlock_writeFlag hx b]
    exact congrArg (fun t : State => Host.Outcome.next (t.setI (s.i + BitVec.ofNat 16 (x.val + 1)))) (store _)
  case loadRegs x =>
    exact congrArg (fun t : State => Host.Outcome.next (t.setI (s.i + BitVec.ofNat 16 (x.val + 1))))
      (s.loadBlock_writeFlag hx b s.i)

end Sys2Proof.Machine

namespace Sys2Proof.Proofs

open Sys2Proof.Machine

/-- Settles O31: the outcome with another VF is the same one with another VF, and writing VF makes them equal. -/
theorem theFlagIsNoHiddenInput : Obligations.TheFlagIsNoHiddenInput := by
  intro i s b hn
  obtain ⟨c, he⟩ := exec_writeFlag hn s b
  rw [he]
  refine ⟨fun f h => by rw [h, mapNext_fault], fun t h => ⟨_, by rw [h, mapNext_next], ?_⟩⟩
  exact t.writeV_writeV_same flagReg c 0

end Sys2Proof.Proofs
end

section
/-! PROOFS. What a store leaves for the next fetch (20_memory section 8): O15. -/

namespace Sys2Proof.Machine

theorem State.toNat_fetchWord (s : State) :
    s.fetchWord.toNat = 256 * (s.memRead s.pc).toNat + (s.memRead (s.pc + 1)).toNat := by
  rw [State.fetchWord, toNat_wordOfBytes, Nat.mul_comm]

@[simp] theorem State.fetchWord_setI (s : State) (a : Word) : (s.setI a).fetchWord = s.fetchWord := rfl

/-- The first byte stored stands at the address of the store. -/
theorem State.memRead_memWriteBytes_first (s : State) (a : Word) (bs : List Byte) (hl : bs.length ≤ 4096)
    (h : 0 < bs.length) : (s.memWriteBytes a bs).memRead a = bs[0] := by
  have hfirst := s.memRead_memWriteBytes_same a bs hl 0 h
  rwa [show a + BitVec.ofNat 16 0 = a from BitVec.add_zero a] at hfirst

/-- Two bytes or more stored at `pc`: the first two are the next word fetched. -/
theorem State.toNat_fetchWord_of_store (s : State) (bs : List Byte) (hl : bs.length ≤ 4096) (h : 1 < bs.length) :
    (s.memWriteBytes s.pc bs).fetchWord.toNat = 256 * bs[0].toNat + bs[1].toNat := by
  have hlow : (s.memWriteBytes s.pc bs).memRead (s.pc + 1) = bs[1] := s.memRead_memWriteBytes_same s.pc bs hl 1 h
  rw [State.toNat_fetchWord, State.memWriteBytes_pc, s.memRead_memWriteBytes_first s.pc bs hl (by omega), hlow]

/-- One byte stored at `pc`: the next word fetched has it as high byte and keeps its low byte. -/
theorem State.toNat_fetchWord_of_storeByte (s : State) (b : Byte) :
    (s.memWrite s.pc b).fetchWord.toNat = 256 * b.toNat + (s.memRead (s.pc + 1)).toNat := by
  have hne : ramIndex (s.pc + 1) ≠ ramIndex s.pc := by
    simpa using ramIndex_add_ne s.pc (j := 1) (k := 0) (by omega) (by omega) (by omega)
  rw [State.toNat_fetchWord, State.memWrite_pc, State.memRead_memWrite, if_pos rfl, State.memRead_memWrite, if_neg hne]

/-- V0 alone is a block of one byte. -/
theorem State.readBlock_zero (s : State) : s.readBlock 0 = [s.readV 0] :=
  List.ext_getElem (by simp) fun j hj _ => by
    obtain rfl : j = 0 := by simpa using hj
    exact s.readBlock_getElem 0 0 hj

@[simp] theorem bcdDigits_length (a : Byte) : (bcdDigits a).length = 3 := by simp [bcdDigits]

/-- Every decimal digit of a byte fits in a byte. -/
theorem toNat_bcdDigits (a : Byte) :
    (bcdDigits a)[0].toNat = a.toNat / 100 ∧ (bcdDigits a)[1].toNat = a.toNat / 10 % 10 ∧
      (bcdDigits a)[2].toNat = a.toNat % 10 := by
  have ha := a.isLt
  simp only [bcdDigits, List.getElem_cons_zero, List.getElem_cons_succ, BitVec.toNat_ofNat]
  omega

end Sys2Proof.Machine

namespace Sys2Proof.Proofs

open Sys2Proof.Machine

/-- Settles O15: each of the three stores puts its first bytes at `pc`, where the next fetch reads them. -/
theorem storesAreSeenByTheNextFetch : Obligations.StoresAreSeenByTheNextFetch := by
  refine ⟨fun x s hx hi => ?block, fun s hi => ?v0, fun x s hi => ?bcd⟩
  case block =>
    have hlen : (s.readBlock x).length = x.val + 1 := s.readBlock_length x
    refine ⟨_, exec_storeRegs s x, by simp, ?_⟩
    rw [State.fetchWord_setI, hi, s.toNat_fetchWord_of_store (s.readBlock x) (by omega) (by omega),
      State.readBlock_getElem, State.readBlock_getElem]
    rfl
  case v0 =>
    refine ⟨_, exec_storeRegs s 0, by simp, ?_⟩
    rw [State.fetchWord_setI, hi, s.readBlock_zero]
    exact s.toNat_fetchWord_of_storeByte (s.readV 0)
  case bcd =>
    obtain ⟨hundreds, tens, -⟩ := toNat_bcdDigits (s.readV x)
    refine ⟨_, exec_ldB s x, by simp, ?_⟩
    rw [hi, s.toNat_fetchWord_of_store (bcdDigits (s.readV x)) (by simp) (by simp), hundreds, tens]

end Sys2Proof.Proofs
end

section
/-! PROOFS. The decoder against the opcode map (30_encoding R46, R49, R50, R52): which words each family leaves
unrecognised, that every word decodes into the row that selects it, and that the decode key decides it. -/

namespace Sys2Proof.Machine

open Sys2Proof.Claims
open Sys2Proof.Laws.EncodesItsRow (KeyHasRow)

/-! The row numbers of the map are 1 to 34, those of the instructions 1 to 35. -/

theorem opcodeMap_rows : opcodeMap.map OpcodeRow.row = List.range' 1 34 := rfl

theorem opcodeMap_row_injOn {r q : OpcodeRow} (hr : r ∈ opcodeMap) (hq : q ∈ opcodeMap) (h : r.row = q.row) :
    r = q :=
  List.inj_on_of_nodup_map (opcodeMap_rows ▸ List.nodup_range') hr hq h

theorem opcodeMap_row_ne_35 {r : OpcodeRow} (hr : r ∈ opcodeMap) : (r.row == 35) = false :=
  (by decide : ∀ r ∈ opcodeMap, (r.row == 35) = false) r hr

theorem instrRow_bounds (i : Instr) : 1 ≤ i.row ∧ i.row ≤ 35 := by
  cases i <;> simp [Instr.row]

/-- Every instruction but the no-op has a row in the map. -/
theorem exists_opcodeRow {i : Instr} (h : i.row ≠ 35) : ∃ r ∈ opcodeMap, r.row = i.row := by
  have hi := instrRow_bounds i
  rw [← List.mem_map, opcodeMap_rows, List.mem_range'_1]
  omega

/-! The second-level keys of the families 0x0, 0x8, 0xE and 0xF that some row of the map has (R50). -/

/-- The low nibbles of the rows of family 0x0. -/
def lowNibbles0 : List (BitVec 4) := [0x0#4, 0xE#4]

/-- The low nibbles of the rows of family 0x8. -/
def lowNibbles8 : List (BitVec 4) := [0x0#4, 0x1#4, 0x2#4, 0x3#4, 0x4#4, 0x5#4, 0x6#4, 0x7#4, 0xE#4]

/-- The low nibbles of the rows of family 0xE. -/
def lowNibblesE : List (BitVec 4) := [0x1#4, 0xE#4]

/-- The low bytes of the rows of family 0xF. -/
def lowBytesF : List Byte := [0x07#8, 0x0A#8, 0x15#8, 0x18#8, 0x1E#8, 0x29#8, 0x33#8, 0x55#8, 0x65#8]

theorem keyHasRow_35_family0 (n : BitVec 4) (kk : Byte) : KeyHasRow 0x0#4 n kk 35 ↔ n ∉ lowNibbles0 := by
  simp [KeyHasRow, opcodeMap, OpcodeRow.matchesKey, fieldOp, fieldN, fieldKK, lowNibbles0]

theorem keyHasRow_35_family8 (n : BitVec 4) (kk : Byte) : KeyHasRow 0x8#4 n kk 35 ↔ n ∉ lowNibbles8 := by
  simp [KeyHasRow, opcodeMap, OpcodeRow.matchesKey, fieldOp, fieldN, fieldKK, lowNibbles8]

theorem keyHasRow_35_familyE (n : BitVec 4) (kk : Byte) : KeyHasRow 0xE#4 n kk 35 ↔ n ∉ lowNibblesE := by
  simp [KeyHasRow, opcodeMap, OpcodeRow.matchesKey, fieldOp, fieldN, fieldKK, lowNibblesE, and_comm]

theorem keyHasRow_35_familyF (n : BitVec 4) (kk : Byte) : KeyHasRow 0xF#4 n kk 35 ↔ kk ∉ lowBytesF := by
  simp [KeyHasRow, opcodeMap, OpcodeRow.matchesKey, fieldOp, fieldN, fieldKK, lowBytesF]

/-- Every other family has a row that its family alone selects. -/
theorem not_keyHasRow_35_of_oneLevel {op : BitVec 4} (hop : op ∉ [0x0#4, 0x8#4, 0xE#4, 0xF#4]) (n : BitVec 4)
    (kk : Byte) : ¬ KeyHasRow op n kk 35 := by
  intro h
  obtain ⟨r, hr, hmask, rfl⟩ : ∃ r ∈ opcodeMap, r.mask = 0xF000 ∧ fieldOp r.value = op :=
    (by decide : ∀ op : BitVec 4, op ∉ [0x0#4, 0x8#4, 0xE#4, 0xF#4] →
      ∃ r ∈ opcodeMap, r.mask = 0xF000 ∧ fieldOp r.value = op) op hop
  have hsel : r.matchesKey (fieldOp r.value) n kk = true := by simp [OpcodeRow.matchesKey, hmask]
  have := List.all_eq_true.1 h r hr
  rw [hsel, opcodeMap_row_ne_35 hr] at this
  cases this

/-- The keys no row has (R52). -/
theorem keyHasRow_35_iff (op n : BitVec 4) (kk : Byte) : KeyHasRow op n kk 35 ↔
    (op = 0x0#4 ∧ n ∉ lowNibbles0) ∨ (op = 0x8#4 ∧ n ∉ lowNibbles8) ∨
    (op = 0xE#4 ∧ n ∉ lowNibblesE) ∨ (op = 0xF#4 ∧ kk ∉ lowBytesF) := by
  rw [← keyHasRow_35_family0 n kk, ← keyHasRow_35_family8 n kk, ← keyHasRow_35_familyE n kk,
    ← keyHasRow_35_familyF n kk]
  constructor
  · intro h
    by_cases hop : op ∈ [0x0#4, 0x8#4, 0xE#4, 0xF#4]
    · simp only [List.mem_cons, List.not_mem_nil, or_false] at hop
      rcases hop with rfl | rfl | rfl | rfl
      · exact .inl ⟨rfl, h⟩
      · exact .inr (.inl ⟨rfl, h⟩)
      · exact .inr (.inr (.inl ⟨rfl, h⟩))
      · exact .inr (.inr (.inr ⟨rfl, h⟩))
    · exact absurd h (not_keyHasRow_35_of_oneLevel hop n kk)
  · rintro (⟨rfl, h⟩ | ⟨rfl, h⟩ | ⟨rfl, h⟩ | ⟨rfl, h⟩) <;> exact h

theorem unrecognised_iff_keyHasRow (w : Word) :
    unrecognised w = true ↔ KeyHasRow (fieldOp w) (fieldN w) (fieldKK w) 35 := by
  simp only [unrecognised, KeyHasRow, List.all_eq_true]
  refine forall₂_congr fun r hr => ?_
  rw [selects_eq_matchesKey hr, opcodeMap_row_ne_35 hr, beq_false]

/-! The decoder's second level, family by family. -/

section
variable {w : Word}

theorem decodeWord_of_family0 (h : fieldOp w = 0x0#4) : decodeWord w = decode0 w := by rw [decodeWord, h]; rfl
theorem decodeWord_of_family8 (h : fieldOp w = 0x8#4) : decodeWord w = decode8 w := by rw [decodeWord, h]; rfl
theorem decodeWord_of_familyE (h : fieldOp w = 0xE#4) : decodeWord w = decodeE w := by rw [decodeWord, h]; rfl
theorem decodeWord_of_familyF (h : fieldOp w = 0xF#4) : decodeWord w = decodeF w := by rw [decodeWord, h]; rfl

theorem decode0_of_not_mem (h : fieldN w ∉ lowNibbles0) : decode0 w = .nop w := by
  unfold decode0
  split
  case h_3 => rfl
  all_goals simp_all [lowNibbles0]

theorem decode8_of_not_mem (h : fieldN w ∉ lowNibbles8) : decode8 w = .nop w := by
  unfold decode8
  split
  case h_10 => rfl
  all_goals simp_all [lowNibbles8]

theorem decodeE_of_not_mem (h : fieldN w ∉ lowNibblesE) : decodeE w = .nop w := by
  unfold decodeE
  split
  case h_3 => rfl
  all_goals simp_all [lowNibblesE]

theorem decodeF_of_not_mem (h : fieldKK w ∉ lowBytesF) : decodeF w = .nop w := by
  unfold decodeF
  split
  case h_10 => rfl
  all_goals simp_all [lowBytesF]

end

theorem decode0_keyHasRow (w : Word) (kk : Byte) : KeyHasRow 0x0#4 (fieldN w) kk (decode0 w).row := by
  unfold decode0
  generalize fieldN w = n
  split
  case h_3 => exact (keyHasRow_35_family0 n kk).2 (by simp_all [lowNibbles0])
  all_goals rfl

theorem decode8_keyHasRow (w : Word) (kk : Byte) : KeyHasRow 0x8#4 (fieldN w) kk (decode8 w).row := by
  unfold decode8
  generalize fieldN w = n
  split
  case h_10 => exact (keyHasRow_35_family8 n kk).2 (by simp_all [lowNibbles8])
  all_goals rfl

theorem decodeE_keyHasRow (w : Word) (kk : Byte) : KeyHasRow 0xE#4 (fieldN w) kk (decodeE w).row := by
  unfold decodeE
  generalize fieldN w = n
  split
  case h_3 => exact (keyHasRow_35_familyE n kk).2 (by simp_all [lowNibblesE])
  all_goals rfl

theorem decodeF_keyHasRow (w : Word) (n : BitVec 4) : KeyHasRow 0xF#4 n (fieldKK w) (decodeF w).row := by
  unfold decodeF
  generalize fieldKK w = kk
  split
  case h_10 => exact (keyHasRow_35_familyF n kk).2 (by simp_all [lowBytesF])
  all_goals rfl

/-- The decoder's last case is family 0xF. -/
theorem eq_familyF_of_not_mem : ∀ op : BitVec 4, op ∉ [0x0#4, 0x1#4, 0x2#4, 0x3#4, 0x4#4, 0x5#4, 0x6#4, 0x7#4, 0x8#4,
    0x9#4, 0xA#4, 0xB#4, 0xC#4, 0xD#4, 0xE#4] → op = 0xF#4 := by
  decide

/-- The rows with the word's key are those of the instruction it decodes to. -/
theorem decodeWord_keyHasRow (w : Word) :
    KeyHasRow (fieldOp w) (fieldN w) (fieldKK w) (decodeWord w).row := by
  unfold decodeWord
  split
  case h_1 h => exact h ▸ decode0_keyHasRow w (fieldKK w)
  case h_9 h => exact h ▸ decode8_keyHasRow w (fieldKK w)
  case h_15 h => exact h ▸ decodeE_keyHasRow w (fieldKK w)
  case h_16 =>
    have h : fieldOp w = 0xF#4 := eq_familyF_of_not_mem _ (by simp_all)
    exact h ▸ decodeF_keyHasRow w (fieldN w)
  all_goals
    rename_i h
    rw [h]
    rfl

/-! The decoder and the map. -/

theorem selects_eq_row_beq {r : OpcodeRow} (hr : r ∈ opcodeMap) (w : Word) :
    r.selects w = (r.row == (decodeWord w).row) :=
  (selects_eq_matchesKey hr w).trans (beq_iff_eq.1 (List.all_eq_true.1 (decodeWord_keyHasRow w) r hr))

theorem row_eq_35_iff_unrecognised (w : Word) : (decodeWord w).row = 35 ↔ unrecognised w = true := by
  constructor
  · intro h
    exact (unrecognised_iff_keyHasRow w).2 (h ▸ decodeWord_keyHasRow w)
  · intro hu
    by_contra h
    obtain ⟨r, hr, hrow⟩ := exists_opcodeRow h
    have hsel := List.all_eq_true.1 hu r hr
    rw [selects_eq_row_beq hr, hrow] at hsel
    simp at hsel

theorem decodeWord_of_unrecognised {w : Word} (h : unrecognised w = true) : decodeWord w = .nop w := by
  rcases (keyHasRow_35_iff _ _ _).1 ((unrecognised_iff_keyHasRow w).1 h) with
    ⟨hop, hkey⟩ | ⟨hop, hkey⟩ | ⟨hop, hkey⟩ | ⟨hop, hkey⟩
  · exact (decodeWord_of_family0 hop).trans (decode0_of_not_mem hkey)
  · exact (decodeWord_of_family8 hop).trans (decode8_of_not_mem hkey)
  · exact (decodeWord_of_familyE hop).trans (decodeE_of_not_mem hkey)
  · exact (decodeWord_of_familyF hop).trans (decodeF_of_not_mem hkey)

/-- Words that the same rows select are words of one row. -/
theorem row_eq_of_selects_eq {v w : Word} (h : ∀ r ∈ opcodeMap, r.selects v = r.selects w) :
    (decodeWord v).row = (decodeWord w).row := by
  by_cases hv : (decodeWord v).row = 35
  · have hu := List.all_eq_true.1 ((row_eq_35_iff_unrecognised v).1 hv)
    have hw : unrecognised w = true := List.all_eq_true.2 fun r hr => h r hr ▸ hu r hr
    rw [hv, (row_eq_35_iff_unrecognised w).2 hw]
  · obtain ⟨r, hr, hrow⟩ := exists_opcodeRow hv
    have hsel := h r hr
    rw [selects_eq_row_beq hr, selects_eq_row_beq hr, hrow, beq_self_eq_true] at hsel
    exact beq_iff_eq.1 hsel.symm

/-! The decode key (R49). -/

theorem decodeKey_of_oneLevel {w : Word} (h : fieldOp w ∉ [0x0#4, 0x8#4, 0xE#4, 0xF#4]) :
    decodeKey w = (fieldOp w, 0, 0) := by
  have h' : fieldOp w ≠ 0x0#4 ∧ fieldOp w ≠ 0x8#4 ∧ fieldOp w ≠ 0xE#4 ∧ fieldOp w ≠ 0xF#4 := by simpa using h
  obtain ⟨h0, h8, hE, hF⟩ := h'
  exact (if_neg (by rintro (h | h | h) <;> contradiction)).trans (if_neg hF)

theorem decodeKey_of_lowNibble {w : Word} (h : fieldOp w ∈ [0x0#4, 0x8#4, 0xE#4]) :
    decodeKey w = (fieldOp w, fieldN w, 0) :=
  if_pos (by simpa [fieldOp] using h)

theorem decodeKey_of_lowByte {w : Word} (h : fieldOp w = 0xF#4) : decodeKey w = (fieldOp w, 0, fieldKK w) :=
  (if_neg (by rw [← fieldOp, h]; decide)).trans (if_pos h)

theorem decodeKey_fst (w : Word) : (decodeKey w).1 = fieldOp w := by
  unfold decodeKey
  dsimp only
  split_ifs <;> rfl

/-- Each row's mask keeps the decode key of its family. -/
theorem opcodeMap_mask : ∀ r ∈ opcodeMap,
    (r.mask = 0xF000 ∧ fieldOp r.value ∉ [0x0#4, 0x8#4, 0xE#4, 0xF#4]) ∨
    (r.mask = 0xF00F ∧ fieldOp r.value ∈ [0x0#4, 0x8#4, 0xE#4]) ∨
    (r.mask = 0xF0FF ∧ fieldOp r.value = 0xF#4) := by
  decide

/-- A row selects the words that have the decode key of its own word. -/
theorem selects_iff_decodeKey_eq {r : OpcodeRow} (hr : r ∈ opcodeMap) (w : Word) :
    r.selects w = true ↔ decodeKey w = decodeKey r.value := by
  rw [selects_eq_matchesKey hr]
  by_cases hop : fieldOp w = fieldOp r.value
  · rcases opcodeMap_mask r hr with ⟨hmask, hfam⟩ | ⟨hmask, hfam⟩ | ⟨hmask, hfam⟩
    · simp [OpcodeRow.matchesKey, hmask, hop, decodeKey_of_oneLevel hfam, decodeKey_of_oneLevel (hop ▸ hfam)]
    · simp [OpcodeRow.matchesKey, hmask, hop, decodeKey_of_lowNibble hfam, decodeKey_of_lowNibble (hop ▸ hfam)]
    · simp [OpcodeRow.matchesKey, hmask, hop, decodeKey_of_lowByte hfam, decodeKey_of_lowByte (hop ▸ hfam)]
  · have hkey : decodeKey w ≠ decodeKey r.value := fun h =>
      hop (by rw [← decodeKey_fst w, ← decodeKey_fst r.value, h])
    simp [OpcodeRow.matchesKey, hop, hkey]

end Sys2Proof.Machine

namespace Sys2Proof.Proofs

open Sys2Proof.Machine

/-- Settles O6: a row selects the words that decode into it, and no two rows have one number. -/
theorem decodeFollowsTheOpcodeMap : Obligations.DecodeFollowsTheOpcodeMap := by
  have hrow : ∀ w, ∀ r ∈ opcodeMap, r.selects w = true → (decodeWord w).row = r.row := fun w r hr hsel =>
    (beq_iff_eq.1 ((selects_eq_row_beq hr w).symm.trans hsel)).symm
  refine ⟨hrow, fun w r hr q hq hrw hqw => ?_, fun w => decodeWord_of_unrecognised⟩
  exact opcodeMap_row_injOn hr hq ((hrow w r hr hrw).symm.trans (hrow w q hq hqw))

/-- Settles O7: the decode key fixes which rows select the word; the no-op's words are the unrecognised ones. -/
theorem decodeDependsOnTheKeyAlone : Obligations.DecodeDependsOnTheKeyAlone := by
  refine ⟨fun v w hkey => row_eq_of_selects_eq fun r hr => ?rows, fun w h => ?families, fun w s h => ?noop⟩
  case rows =>
    rw [Bool.eq_iff_iff, selects_iff_decodeKey_eq hr, selects_iff_decodeKey_eq hr, hkey]
  all_goals have hu := (row_eq_35_iff_unrecognised w).1 h
  case families =>
    exact ((keyHasRow_35_iff _ _ _).1 ((unrecognised_iff_keyHasRow w).1 hu)).imp And.left
      (.imp And.left (.imp And.left And.left))
  case noop =>
    rw [decodeWord_of_unrecognised hu, exec_nop]

/-- Settles O8: the first level gives the family, the second the instruction. -/
theorem decodeTakesOperandsFromTheirFields : Obligations.DecodeTakesOperandsFromTheirFields := by
  intro w op x y n kk nnn
  refine ⟨fun h => ?family0, ?_, ?_, ?_, ?_, ?_, ?_, ?_, fun h => ?family8, ?_, ?_, ?_, ?_, ?_, fun h => ?familyE,
    fun h => ?familyF⟩
  case family0 =>
    rw [decodeWord_of_family0 h, decode0]
    and_intros
    all_goals
      intro (hkey : fieldN w = _)
      rw [hkey]
      rfl
  case family8 =>
    rw [decodeWord_of_family8 h, decode8]
    and_intros
    all_goals
      intro (hkey : fieldN w = _)
      rw [hkey]
      rfl
  case familyE =>
    rw [decodeWord_of_familyE h, decodeE]
    and_intros
    all_goals
      intro (hkey : fieldN w = _)
      rw [hkey]
      rfl
  case familyF =>
    rw [decodeWord_of_familyF h, decodeF]
    and_intros
    all_goals
      intro (hkey : fieldKK w = _)
      rw [hkey]
      rfl
  all_goals
    intro (h : fieldOp w = _)
    rw [decodeWord, h]
    rfl

/-- Settles O9: the low nibbles of family 0x8 that no row has are the seven listed. -/
theorem unrecognisedWordsAreTheListedOnes : Obligations.UnrecognisedWordsAreTheListedOnes := by
  intro w
  have h8 : ∀ n : BitVec 4, n ∉ lowNibbles8 ↔ n ∈ [0x8#4, 0x9#4, 0xA#4, 0xB#4, 0xC#4, 0xD#4, 0xF#4] := by decide
  rw [unrecognised_iff_keyHasRow, keyHasRow_35_iff, h8]
  simp [lowNibbles0, lowNibblesE, lowBytesF, fieldOp, fieldN, fieldKK]

/-- Settles O11, by decoding the twelve words. -/
theorem sampleWordsDecode : Obligations.SampleWordsDecode := by
  unfold Obligations.SampleWordsDecode
  decide

end Sys2Proof.Proofs
end

section
/-! PROOFS. The five arithmetic instructions that write a result and a flag (41_arithmetic_logic section 4):
O26, O27, O28. What a register holds is said in numbers: the results, and the flags of R75. -/

namespace Sys2Proof.Machine

open Sys2Proof.Claims

theorem onlyRegAndFlag_writeResultAndFlag (s : State) (x : RegIdx) (r : Byte) (g : Bool) :
    OnlyRegAndFlag x s (s.writeResultAndFlag x r g) :=
  ⟨rfl, fun _ hx hf => s.readV_writeResultAndFlag_other hx hf r g⟩

/-! Results. -/

theorem byte_toNat_sub (a b : Byte) : (a - b).toNat = (a.toNat + 256 - b.toNat) % 256 := by
  have hb := b.isLt
  rw [BitVec.toNat_sub]
  omega

theorem byte_toNat_shiftRight_one (a : Byte) : (a >>> 1).toNat = a.toNat / 2 := by
  rw [BitVec.toNat_ushiftRight, Nat.shiftRight_one]

theorem byte_toNat_shiftLeft_one (a : Byte) : (a <<< 1).toNat = a.toNat * 2 % 256 := by
  rw [BitVec.toNat_shiftLeft, Nat.shiftLeft_eq, Nat.pow_one]

/-! Flags. -/

theorem flagByte_carryOut (a b : Byte) : flagByte (carryOut a b) = if a.toNat + b.toNat > 255 then 1 else 0 := by
  simp [flagByte_eq, carryOut]

theorem flagByte_noBorrow (a b : Byte) : flagByte (noBorrow a b) = if a.toNat ≥ b.toNat then 1 else 0 := by
  simp [flagByte_eq, noBorrow]

theorem flagByte_toNat (g : Bool) : (flagByte g).toNat = g.toNat := by
  cases g <;> rfl

theorem flagByte_droppedRight_toNat (a : Byte) : (flagByte (droppedRight a)).toNat = a.toNat % 2 := by
  have hbit : (droppedRight a).toNat = a.toNat / 2 ^ 0 % 2 := Nat.toNat_testBit a.toNat 0
  rw [flagByte_toNat, hbit, Nat.pow_zero, Nat.div_one]

theorem flagByte_droppedLeft_toNat (a : Byte) : (flagByte (droppedLeft a)).toNat = a.toNat / 128 := by
  have hbit : (droppedLeft a).toNat = a.toNat / 128 % 2 := Nat.toNat_testBit a.toNat 7
  have ha := a.isLt
  rw [flagByte_toNat, hbit]
  omega

/-! The two subtractions. -/

/-- What a difference and its flag leave, whichever register each operand was read from. -/
theorem State.writeResultAndFlag_difference (s : State) (x : RegIdx) (a b : Byte) :
    let t := s.writeResultAndFlag x (a - b) (noBorrow a b)
    (x ≠ flagReg → (t.readV x).toNat = (a.toNat + 256 - b.toNat) % 256) ∧
    t.readV flagReg = (if a.toNat ≥ b.toNat then 1 else 0) ∧ OnlyRegAndFlag x s t := by
  refine ⟨fun hx => ?difference, ?noBorrow, onlyRegAndFlag_writeResultAndFlag s x _ _⟩
  case difference => rw [s.readV_writeResultAndFlag_dest hx, byte_toNat_sub]
  case noBorrow => rw [s.readV_writeResultAndFlag_flag, flagByte_noBorrow]

end Sys2Proof.Machine

namespace Sys2Proof.Proofs

open Sys2Proof.Machine

/-- Settles O26: the sum and its carry, each read back from the one write of result and flag. -/
theorem addRegistersGivesSumAndCarry : Obligations.AddRegistersGivesSumAndCarry := by
  intro x y s
  refine ⟨_, exec_addReg s x y, fun hx => ?sum, ?carry, onlyRegAndFlag_writeResultAndFlag s x _ _⟩
  case sum => rw [s.readV_writeResultAndFlag_dest hx, BitVec.toNat_add]
  case carry => rw [s.readV_writeResultAndFlag_flag, flagByte_carryOut]

/-- Settles O27: the two directions differ in the order of the operands alone. -/
theorem subtractionsGiveDifferenceAndNoBorrow : Obligations.SubtractionsGiveDifferenceAndNoBorrow :=
  ⟨fun x y s => ⟨_, exec_subReg s x y, s.writeResultAndFlag_difference x (s.readV x) (s.readV y)⟩,
    fun x y s => ⟨_, exec_subnReg s x y, s.writeResultAndFlag_difference x (s.readV y) (s.readV x)⟩⟩

/-- Settles O28: the operand is `V[x]` in both shifts, and the bit dropped is its lowest or its highest. -/
theorem shiftsByOneGiveTheDroppedBit : Obligations.ShiftsByOneGiveTheDroppedBit := by
  refine ⟨fun x y s => ⟨_, exec_shr s x y, fun hx => ?half, ?bit0, onlyRegAndFlag_writeResultAndFlag s x _ _⟩,
    fun x y s => ⟨_, exec_shl s x y, fun hx => ?double, ?bit7, onlyRegAndFlag_writeResultAndFlag s x _ _⟩⟩
  case half => rw [s.readV_writeResultAndFlag_dest hx, byte_toNat_shiftRight_one]
  case bit0 => rw [s.readV_writeResultAndFlag_flag, flagByte_droppedRight_toNat]
  case double => rw [s.readV_writeResultAndFlag_dest hx, byte_toNat_shiftLeft_one]
  case bit7 => rw [s.readV_writeResultAndFlag_flag, flagByte_droppedLeft_toNat]

end Sys2Proof.Proofs
end

section
/-! PROOFS. The host's turns as the schedule holds them against host events and Steps taken by turns
(60_exceptions section 2): O58, O59; and the step of an unrecognised word (60_exceptions section 1): O23. -/

namespace Sys2Proof.Machine

open Sys2Proof.Claims

theorem mapNext_id (o : Host.Outcome State Fault Refusal) : mapNext id o = o := by
  cases o <;> rfl

/-! A Step neither depends on what the host does next nor changes it. -/

theorem cycle_withSchedule (s : State) (sch : List (List HostEvent)) :
    cycle { s with schedule := sch } = mapNext (fun t => { t with schedule := sch }) (cycle s) := by
  refine (exec_withSchedule s.advance (decodeWord s.fetchWord) sch).trans ?_
  rw [cycle]
  cases exec (decodeWord s.fetchWord) s.advance <;> rfl

theorem cycle_own {s t : State} (h : cycle s = .next t) : t.schedule = s.schedule ∧ t.hostTail = s.hostTail :=
  exec_own s.advance h

/-- The host's turn and the Step leave the rest of the schedule and what recurs after it. -/
theorem cycle_hostEvents_own {s t : State} {turn : List HostEvent} (h : cycle (s.hostEvents turn) = .next t) :
    t.schedule = s.schedule ∧ t.hostTail = s.hostTail := by
  obtain ⟨hsch, htail⟩ := cycle_own h
  obtain ⟨esch, etail, -⟩ := s.hostEvents_own turn
  exact ⟨hsch.trans esch, htail.trans etail⟩

/-! What a step does with the coming turn. -/

/-- A step takes the turn scheduled first; what is scheduled after it, it only hands on. -/
theorem step_scheduled (s : State) (turn : List HostEvent) (later : List (List HostEvent)) :
    step { s with schedule := turn :: later } =
      mapNext (fun t => { t with schedule := later }) (cycle (s.hostEvents turn)) :=
  calc step { s with schedule := turn :: later }
      = cycle ({ s with schedule := later }.hostEvents turn) := congrArg cycle (State.hostTurn_of_cons _ rfl)
    _ = cycle { s.hostEvents turn with schedule := later } := congrArg cycle (s.hostEvents_withSchedule later turn)
    _ = mapNext (fun t => { t with schedule := later }) (cycle (s.hostEvents turn)) := cycle_withSchedule _ later

theorem step_recurring {s : State} {turn : List HostEvent} (hs : s.schedule = []) (ht : s.hostTail = .repeats turn) :
    step s = cycle (s.hostEvents turn) := by
  rw [step, s.hostTurn_of_repeats hs ht]

/-! Host events and Steps by turns, whose first Step is known. -/

section
variable {s t : State} {turn : List HostEvent} (turns : List (List HostEvent))

theorem interleaved_of_next (h : cycle (s.hostEvents turn) = .next t) :
    interleaved (turn :: turns) s = interleaved turns t := by
  simp only [interleaved, h]

theorem interleaved_of_fault {f : Fault} (h : cycle (s.hostEvents turn) = .fault f) :
    interleaved (turn :: turns) s = .fault f := by
  simp only [interleaved, h]

theorem interleaved_of_refused {r : Refusal} (h : cycle (s.hostEvents turn) = .refused r) :
    interleaved (turn :: turns) s = .refused r := by
  simp only [interleaved, h]

end

/-- A run follows the turns when its first step does the first turn, but for a change `f` of the next state, and the
run of the steps left follows the turns left. -/
theorem core_run_eq_interleaved_cons {n : Nat} {f : State → State} {s u : State} {turn : List HostEvent}
    {turns : List (List HostEvent)} (hstep : step s = mapNext f (cycle (u.hostEvents turn)))
    (hrun : ∀ t, cycle (u.hostEvents turn) = .next t → core.run n (f t) = interleaved turns t) :
    core.run (n + 1) s = interleaved (turn :: turns) u := by
  cases hc : cycle (u.hostEvents turn) with
  | next t =>
    rw [hc] at hstep
    exact (core_run_of_next n hstep).trans ((hrun t hc).trans (interleaved_of_next turns hc).symm)
  | fault r =>
    rw [hc] at hstep
    exact (core_run_of_fault n hstep).trans (interleaved_of_fault turns hc).symm
  | refused r =>
    rw [hc] at hstep
    exact (core_run_of_refused n hstep).trans (interleaved_of_refused turns hc).symm

theorem core_run_scheduled (turns rest : List (List HostEvent)) (s : State) :
    core.run turns.length { s with schedule := turns ++ rest } = interleaved turns { s with schedule := rest } := by
  induction turns generalizing s with
  | nil => rfl
  | cons turn turns ih =>
    refine core_run_eq_interleaved_cons (step_scheduled { s with schedule := rest } turn (turns ++ rest)) fun t ht => ?_
    have hrest : t.schedule = rest := (cycle_hostEvents_own ht).1
    exact (ih t).trans (by rw [← hrest])

theorem core_run_recurring (n : Nat) (turn : List HostEvent) {s : State} (hs : s.schedule = [])
    (ht : s.hostTail = .repeats turn) : core.run n s = interleaved (List.replicate n turn) s := by
  induction n generalizing s with
  | zero => rfl
  | succ n ih =>
    have hstep := (step_recurring hs ht).trans (mapNext_id _).symm
    refine core_run_eq_interleaved_cons hstep fun t hnext => ?_
    obtain ⟨hsch, htail⟩ := cycle_hostEvents_own hnext
    exact ih (hsch.trans hs) (htail.trans ht)

end Sys2Proof.Machine

namespace Sys2Proof.Proofs

open Sys2Proof.Machine

/-- Settles O58, by induction on the turns: each step takes the turn scheduled first and hands on the others. -/
theorem everyFiniteInterleavingIsARun : Obligations.EveryFiniteInterleavingIsARun :=
  core_run_scheduled

/-- Settles O59, by induction on the number of steps: the schedule stays used up and the turn goes on recurring. -/
theorem hostTurnsMayRecurForEver : Obligations.HostTurnsMayRecurForEver :=
  fun n turn _ hs ht => core_run_recurring n turn hs ht

/-- Settles O23: the word decodes to the no-op, so the Step's advance is all that happens. -/
theorem unrecognisedWordsLeaveNoTrace : Obligations.UnrecognisedWordsLeaveNoTrace := by
  refine ⟨fun w s => exec_nop s w, fun s hq hu => ?_⟩
  rw [step_of_quiet s hq, decodeWord_of_unrecognised hu, exec_nop]
  rfl

end Sys2Proof.Proofs
end

section
/-! PROOFS. What KeyWrite, ReadFrame and Load do and answer (60_exceptions R121, R127, R128): O52, O53, O56. -/

namespace Sys2Proof.Machine

/-! Load, by the length of the image (R121). -/

section
variable (s : State) {image : List Byte}

theorem State.hostEvent_load_of_lt (h : Config.maxImage < image.length) : s.hostEvent (.load image) = s :=
  if_pos h

theorem State.hostEvent_load_of_le (h : image.length ≤ Config.maxImage) :
    s.hostEvent (.load image) = s.memWriteBytes Config.progBase image :=
  if_neg (Nat.not_lt.2 h)

theorem State.hostReply_load_eq_imageTooLarge_iff :
    s.hostReply (.load image) = .imageTooLarge ↔ Config.maxImage < image.length := by
  simp [State.hostReply]

end

/-- No host event but Reset writes the framebuffer. -/
theorem State.hostEvent_fb (s : State) {e : HostEvent} (h : e ≠ .reset) : (s.hostEvent e).fb = s.fb := by
  cases e
  case reset => exact absurd rfl h
  case load image =>
    rcases Nat.lt_or_ge Config.maxImage image.length with hlt | hle
    · rw [s.hostEvent_load_of_lt hlt]
    · rw [s.hostEvent_load_of_le hle, State.memWriteBytes_fb]
  all_goals rfl

end Sys2Proof.Machine

namespace Sys2Proof.Proofs

open Sys2Proof.Machine

/-- Settles O52: the write reaches one key, host events follow one another, and the frame of the instructions keeps
the keys. -/
theorem keyWriteSetsOneKey : Obligations.KeyWriteSetsOneKey := by
  refine ⟨fun s k b => ⟨?same, fun j hj => ?other, rfl, rfl⟩, fun _ _ _ => rfl, fun i s t h k => ?instruction⟩
  case same => exact (s.keyDown_keyWrite k k b).trans (if_pos rfl)
  case other => exact (s.keyDown_keyWrite k j b).trans (if_neg hj)
  case instruction => rw [State.keyDown, State.keyDown, (exec_frame h).keys]

/-- Settles O53: the reply is the two fields themselves, and no event but Reset writes the framebuffer. -/
theorem readingTheFrameChangesNothing : Obligations.ReadingTheFrameChangesNothing :=
  ⟨fun _ => ⟨rfl, rfl⟩, fun s _ he px py => congrArg (Framebuffer.pixel · px py) (s.hostEvent_fb he)⟩

/-- Settles O56: Load alone can answer ImageTooLarge, and does so exactly where it stores nothing. -/
theorem tooLargeImagesChangeNothing : Obligations.TooLargeImagesChangeNothing := by
  refine ⟨fun s image h => ⟨s.hostReply_load_eq_imageTooLarge_iff.2 h, s.hostEvent_load_of_lt h⟩, fun s e h => ?_⟩
  cases e
  case load image => exact ⟨image, rfl, s.hostReply_load_eq_imageTooLarge_iff.1 h⟩
  all_goals cases h

end Sys2Proof.Proofs
end

section
/-! PROOFS. Where a step and a run can stop (60_exceptions section 1, 70_reset section 4): O46, O47. An instruction
answers a next state, or it is RET or CALL at its edge of the stack; a run goes on as long as its instructions do. -/

namespace Sys2Proof.Machine

/-! The instructions that have no successor. -/

section
variable (s : State)

@[simp] theorem hasSuccessor_ret : hasSuccessor .ret s = true ↔ s.sp ≠ 0 := bne_iff_ne

@[simp] theorem hasSuccessor_call (nnn : BitVec 12) : hasSuccessor (.call nnn) s = true ↔ s.sp ≠ 15 := bne_iff_ne

/-- The advance of the Step does not move the call stack. -/
theorem hasSuccessor_advance (i : Instr) : hasSuccessor i s.advance = hasSuccessor i s := rfl

end

/-- The outcomes of an instruction: a next state, or one of the two faults at the edges of the stack (R122). -/
theorem exec_outcome (i : Instr) (s : State) :
    (hasSuccessor i s = true ∧ ∃ t, exec i s = .next t) ∨
    (i = .ret ∧ s.sp = 0 ∧ exec i s = .fault .stackUnderflow) ∨
    ((∃ nnn, i = .call nnn) ∧ s.sp = 15 ∧ exec i s = .fault .stackOverflow) := by
  cases i
  case ret =>
    by_cases hs : s.sp = 0
    · exact .inr (.inl ⟨rfl, hs, exec_ret_of_eq s hs⟩)
    · exact .inl ⟨(hasSuccessor_ret s).2 hs, _, exec_ret_of_ne s hs⟩
  case call nnn =>
    by_cases hs : s.sp = 15
    · exact .inr (.inr ⟨⟨nnn, rfl⟩, hs, exec_call_of_eq s nnn hs⟩)
    · exact .inl ⟨(hasSuccessor_call s nnn).2 hs, _, exec_call_of_ne s nnn hs⟩
  case ldKey x =>
    cases hk : s.pressedKeys with
    | nil => exact .inl ⟨rfl, _, exec_ldKey_of_nil s x hk⟩
    | cons k ks => exact .inl ⟨rfl, _, exec_ldKey_of_cons s x hk⟩
  all_goals exact .inl ⟨rfl, _, rfl⟩

section
variable {i : Instr} {s : State}

theorem exec_next_iff : (∃ t, exec i s = .next t) ↔ hasSuccessor i s = true := by
  rcases exec_outcome i s with ⟨hi, ht⟩ | ⟨rfl, hs, h⟩ | ⟨⟨nnn, rfl⟩, hs, h⟩
  · exact iff_of_true ht hi
  · simp [h, hs]
  · simp [h, hs]

theorem exec_ne_refused (r : Refusal) : exec i s ≠ .refused r := by
  rcases exec_outcome i s with ⟨-, t, h⟩ | ⟨-, -, h⟩ | ⟨-, -, h⟩ <;> simp [h]

theorem exec_stackUnderflow_iff : exec i s = .fault .stackUnderflow ↔ i = .ret ∧ s.sp = 0 := by
  refine ⟨fun hf => ?_, fun ⟨hi, hs⟩ => hi ▸ exec_ret_of_eq s hs⟩
  rcases exec_outcome i s with ⟨-, t, h⟩ | ⟨hi, hs, -⟩ | ⟨-, -, h⟩
  · cases h.symm.trans hf
  · exact ⟨hi, hs⟩
  · cases h.symm.trans hf

theorem exec_stackOverflow_iff : exec i s = .fault .stackOverflow ↔ (∃ nnn, i = .call nnn) ∧ s.sp = 15 := by
  refine ⟨fun hf => ?_, fun ⟨⟨nnn, hi⟩, hs⟩ => hi ▸ exec_call_of_eq s nnn hs⟩
  rcases exec_outcome i s with ⟨-, t, h⟩ | ⟨-, -, h⟩ | ⟨hi, hs, -⟩
  · cases h.symm.trans hf
  · cases h.symm.trans hf
  · exact ⟨hi, hs⟩

end

/-- A step has a successor exactly when the instruction fetched after the host's turn has one. -/
theorem step_next_iff (s : State) :
    (∃ t, step s = .next t) ↔ hasSuccessor (decodeWord s.hostTurn.fetchWord) s.hostTurn = true := by
  rw [step_eq, exec_next_iff, hasSuccessor_advance]

/-! The last step of a run. -/

theorem core_run_one (s : State) : core.run 1 s = step s := by
  cases h : step s with
  | next t => exact core_run_of_next 0 h
  | fault r => exact core_run_of_fault 0 h
  | refused r => exact core_run_of_refused 0 h

theorem core_run_succ_next_iff {n : Nat} {s u : State} :
    core.run (n + 1) s = .next u ↔ ∃ t, core.run n s = .next t ∧ step t = .next u := by
  induction n generalizing s with
  | zero =>
    rw [core_run_one]
    refine ⟨fun h => ⟨s, rfl, h⟩, fun ⟨t, ht, h⟩ => ?_⟩
    cases ht
    exact h
  | succ n ih =>
    cases h : step s with
    | next t => rw [core_run_of_next (n + 1) h, core_run_of_next n h, ih]
    | fault r => simp [core_run_of_fault _ h]
    | refused r => simp [core_run_of_refused _ h]

/-- A run of one step more is safe when the shorter run ends at an instruction that has a successor. -/
theorem safeRun_succ_iff (n : Nat) (s : State) : SafeRun (n + 1) s ↔
    ∃ t, core.run n s = .next t ∧ hasSuccessor (decodeWord t.hostTurn.fetchWord) t.hostTurn = true :=
  calc SafeRun (n + 1) s
      ↔ ∃ u t, core.run n s = .next t ∧ step t = .next u := exists_congr fun _ => core_run_succ_next_iff
    _ ↔ ∃ t, core.run n s = .next t ∧ ∃ u, step t = .next u := by
      rw [exists_comm]
      simp only [exists_and_left]
    _ ↔ _ := exists_congr fun t => and_congr_right fun _ => step_next_iff t

theorem safeRun_of_succ {n : Nat} {s : State} (h : SafeRun (n + 1) s) : SafeRun n s := by
  obtain ⟨t, ht, -⟩ := (safeRun_succ_iff n s).1 h
  exact ⟨t, ht⟩

end Sys2Proof.Machine

namespace Sys2Proof.Proofs

open Sys2Proof.Machine

/-- Settles O46: a step stops as the instruction fetched after the host's turn does, for the advance before it does not
move the call stack. -/
theorem stepStopsOnlyAtTheStackEdges : Obligations.StepStopsOnlyAtTheStackEdges := fun s =>
  ⟨step_next_iff s, fun r => exec_ne_refused r, exec_stackUnderflow_iff, exec_stackOverflow_iff⟩

/-- Settles O47, by induction on the number of steps: the last step of a run adds the last condition. -/
theorem safeRunsNeverMeetTheStackEdges : Obligations.SafeRunsNeverMeetTheStackEdges := by
  intro n s
  induction n with
  | zero => exact iff_of_true ⟨s, rfl⟩ fun k hk => absurd hk k.not_lt_zero
  | succ n ih =>
    rw [Nat.forall_lt_succ_right, ← ih, ← safeRun_succ_iff]
    exact (and_iff_right_of_imp safeRun_of_succ).symm

end Sys2Proof.Proofs
end

section
/-! PROOFS. Decoding what the encoder writes (30_encoding sections 1 to 3): O4, O5, O10. The word of each format gives
its fields back, and the no-op carries a word that no row selects. -/

namespace Sys2Proof.Machine

/-- The canonical word of a well-formed instruction decodes to it. -/
theorem decodeWord_encode {i : Instr} (hw : i.wellFormed = true) : decodeWord (encode i) = i := by
  cases i
  case nop w => exact decodeWord_of_unrecognised hw
  case cls | ret => decide
  case jp | call | ldI | jpV0 => simp [encode, decodeWord]
  case seImm | sneImm | ldImm | addImm | rnd => simp [encode, decodeWord]
  case seReg | sneReg | drw => simp [encode, decodeWord]
  case ldReg | orReg | andReg | xorReg | addReg | subReg | shr | subnReg | shl =>
    simp [encode, decodeWord, decode8]
  case skp | sknp => simp [encode, decodeWord, decodeE]
  case ldFromDT | ldKey | ldDT | ldST | addI | ldF | ldB | storeRegs | loadRegs =>
    simp [encode, decodeWord, decodeF]

/-- The no-op alone can be ill formed. -/
theorem wellFormed_of_row_ne_35 {i : Instr} (h : i.row ≠ 35) : i.wellFormed = true := by
  cases i
  case nop => exact absurd rfl h
  all_goals rfl

theorem wellFormed_decodeWord (w : Word) : (decodeWord w).wellFormed = true := by
  by_cases h : (decodeWord w).row = 35
  · have hu := (row_eq_35_iff_unrecognised w).1 h
    rw [decodeWord_of_unrecognised hu]
    exact hu
  · exact wellFormed_of_row_ne_35 h

end Sys2Proof.Machine

namespace Sys2Proof.Proofs

open Sys2Proof.Machine

/-- Settles O4, constructor by constructor, each from the fields of its format. -/
theorem decodeEncodeRoundTrip : Obligations.DecodeEncodeRoundTrip :=
  fun _ => decodeWord_encode

/-- Settles O5: the first two bytes are the canonical word, and a shorter list has no second byte. -/
theorem encodedBytesDecodeWithTheRest : Obligations.EncodedBytesDecodeWithTheRest := by
  refine ⟨fun i rest hw => ?encoded, fun bs hlen => ?short⟩
  case encoded => rw [encodeBytes, decode_wordBytes, decodeWord_encode hw]
  case short =>
    match bs, hlen with
    | [], _ => rfl
    | [_], _ => rfl

/-- Settles O10: a word decodes to a well-formed instruction, so its canonical word decodes alike. -/
theorem decodedInstructionsAreWellFormed : Obligations.DecodedInstructionsAreWellFormed :=
  fun w => ⟨wellFormed_decodeWord w, decodeWord_encode (wellFormed_decodeWord w)⟩

end Sys2Proof.Proofs
end

section
/-! PROOFS. The invariant: RAM stays in its canonical form (log 23): O2, O45. -/

namespace Sys2Proof.Machine

/-- An instruction leaves RAM as it was or stores bytes, and both keep the canonical form. -/
theorem exec_keeps_wf {i : Instr} {s t : State} (h : s.mem.wf) (hexec : exec i s = .next t) : t.mem.wf := by
  rcases exec_mem_cases s hexec with hmem | ⟨bs, hmem⟩
  · rw [hmem]
    exact h
  · rw [hmem]
    exact State.wf_memWriteBytes h s.i bs

end Sys2Proof.Machine

namespace Sys2Proof.Proofs

open Sys2Proof.Machine

/-- Settles O2: nothing is listed. -/
theorem resetMemoryIsCanonical : Obligations.ResetMemoryIsCanonical :=
  Memory.wf_nil

/-- Settles O45: the host's turn keeps the canonical form, and so does the instruction after it. -/
theorem stepKeepsMemoryCanonical : Obligations.StepKeepsMemoryCanonical := by
  intro s t hs hstep
  have hturn : s.hostTurn.mem.wf := State.wf_hostTurn hs
  rw [step_eq] at hstep
  exact exec_keeps_wf (s := s.hostTurn.advance) hturn hstep

end Sys2Proof.Proofs
end

section
/-! PROOFS. RAM through addresses modulo 4096, and the word fetched next (20_memory sections 3, 4 and 6): O13, O14,
O16. -/

namespace Sys2Proof.Machine

/-- The index of the byte after an address. -/
theorem ramIndex_succ (a : Word) : ramIndex (a + 1) = (a.toNat + 1) % 4096 := by
  rw [ramIndex, BitVec.toNat_add, Config.memSize, show (1 : Word).toNat = 1 from rfl]
  omega

/-- Placing a word changes nothing but RAM. -/
theorem State.placeWord_frame (s : State) (w : Word) : s.placeWord w = { s with mem := (s.placeWord w).mem } :=
  s.memWriteBytes_frame s.pc (wordBytes w)

/-- A word placed is the next word fetched. -/
theorem State.fetchWord_placeWord (s : State) (w : Word) : (s.placeWord w).fetchWord = w := by
  have hpc : (s.placeWord w).pc = s.pc := s.memWriteBytes_pc s.pc (wordBytes w)
  rw [State.fetchWord, hpc, s.memRead_placeWord_high, s.memRead_placeWord_low, wordOfBytes_split]

/-- With the coming turn made quiet, the host's turn uses up a turn scheduled and does nothing. -/
theorem State.hostTurn_quietTurn {s t : State} (htail : t.hostTail = s.hostTail) :
    { t with schedule := s.quietTurn }.hostTurn = { t with schedule := s.schedule.tail } := by
  cases hs : s.schedule with
  | cons turn rest =>
    have hq : s.quietTurn = [] :: rest := by simp only [State.quietTurn, hs]
    rw [hq]
    rfl
  | nil =>
    match ht : s.hostTail with
    | .repeats [] =>
      have hq : s.quietTurn = [] := by simp only [State.quietTurn, hs, ht]
      rw [hq]
      exact State.hostTurn_of_silent _ rfl (htail.trans ht)
    | .repeats (_ :: _) | .free =>
      have hq : s.quietTurn = [[]] := by simp only [State.quietTurn, hs, ht]
      rw [hq]
      rfl

/-- The turn before the word placed is fetched is empty, and it uses up the turn that was scheduled. -/
theorem State.hostTurn_withFetchWord (s : State) (w : Word) :
    (s.withFetchWord 16 w.toNat).hostTurn = { s.placeWord w with schedule := s.schedule.tail } := by
  rw [State.withFetchWord, tableWord_16]
  exact State.hostTurn_quietTurn (s.memWriteBytes_hostTail s.pc (wordBytes w))

end Sys2Proof.Machine

namespace Sys2Proof.Proofs

open Sys2Proof.Machine

/-- Settles O13: the two addresses reach the bytes of their low 12 bits. -/
theorem fetchReadsTheBigEndianPair : Obligations.FetchReadsTheBigEndianPair := by
  intro s
  rw [s.toNat_fetchWord, State.memRead, State.memRead, ramIndex_succ]
  rfl

/-- Settles O14: an access depends on the index its address reaches. -/
theorem addressesReachRamModulo4096 : Obligations.AddressesReachRamModulo4096 :=
  ⟨fun s _ _ h => congrArg s.mem.read h, State.memRead_memWrite⟩

/-- Settles O16: the host's turn is empty, and the Step after it fetches the word placed. -/
theorem placedWordIsTheNextInstruction : Obligations.PlacedWordIsTheNextInstruction := by
  intro s w
  refine ⟨State.advance { s.placeWord w with schedule := s.schedule.tail }, ?frame, ?step,
    s.memRead_placeWord_high w, s.memRead_placeWord_low w, fun a => s.memRead_placeWord_other w a⟩
  case frame =>
    rw [s.placeWord_frame w]
    rfl
  case step =>
    have hword : State.fetchWord { s.placeWord w with schedule := s.schedule.tail } = w := s.fetchWord_placeWord w
    rw [step_eq, s.hostTurn_withFetchWord, hword]

end Sys2Proof.Proofs
end

section
/-! PROOFS. Byte for byte, what the instructions that move blocks and the host's Load leave in RAM and in the registers
(43_timer_memory section 4, 70_reset section 2): O40, O41, O42, O43, O55. -/

namespace Sys2Proof.Machine

/-- `I` ends one past the last byte of the block. -/
theorem toNat_add_blockLength (a : Word) (x : RegIdx) :
    (a + BitVec.ofNat 16 (x.val + 1)).toNat = (a.toNat + x.val + 1) % 65536 := by
  rw [BitVec.toNat_add, BitVec.toNat_ofNat]
  omega

@[simp] theorem State.memRead_setI (s : State) (a b : Word) : (s.setI a).memRead b = s.memRead b := rfl

@[simp] theorem State.readV_setI (s : State) (a : Word) (x : RegIdx) : (s.setI a).readV x = s.readV x := rfl

/-- Loading a block changes nothing but the register file. -/
theorem State.loadBlock_frame (s : State) (x : RegIdx) (a : Word) :
    s.loadBlock x a = { s with v := (s.loadBlock x a).v } := rfl

/-- A block stored is read back register by register. -/
theorem State.memRead_storeBlock (s : State) {x r : RegIdx} (hr : r ≤ x) (a : Word) :
    (s.memWriteBytes a (s.readBlock x)).memRead (a + BitVec.ofNat 16 r.val) = s.readV r := by
  have hlen := s.readBlock_length x
  have hx := x.isLt
  have hlt : r.val < (s.readBlock x).length := by rw [hlen]; exact Nat.lt_succ_of_le hr
  rw [s.memRead_memWriteBytes_same a (s.readBlock x) (by omega) r.val hlt, s.readBlock_getElem]

/-- The index of an address inside the image: Load does not wrap. -/
theorem ramIndex_progBase_add {j : Nat} (h : j < Config.maxImage) :
    ramIndex (Config.progBase + BitVec.ofNat 16 j) = 0x200 + j := by
  have h' : j < 3584 := h
  rw [ramIndex, BitVec.toNat_add, BitVec.toNat_ofNat, Config.memSize, show Config.progBase.toNat = 0x200 from rfl]
  omega

end Sys2Proof.Machine

namespace Sys2Proof.Proofs

open Sys2Proof.Machine

/-- Settles O40: the three bytes stored are the digits, and no other byte is reached. -/
theorem bcdStoreWritesThreeDigits : Obligations.BcdStoreWritesThreeDigits := by
  intro x s
  obtain ⟨hundreds, tens, ones⟩ := toNat_bcdDigits (s.readV x)
  have stored := s.memRead_memWriteBytes_same s.i (bcdDigits (s.readV x)) (by simp)
  refine ⟨_, exec_ldB s x, ?hundreds, (congrArg BitVec.toNat (stored 1 (by simp))).trans tens,
    (congrArg BitVec.toNat (stored 2 (by simp))).trans ones, fun a h0 h1 h2 => ?other, s.memWriteBytes_frame s.i _⟩
  case hundreds => rw [s.memRead_memWriteBytes_first s.i _ (by simp) (by simp), hundreds]
  case other =>
    refine s.memRead_memWriteBytes_other s.i a _ fun j hj => ?_
    match j, hj with
    | 0, _ => rwa [BitVec.add_zero]
    | 1, _ => exact h1
    | 2, _ => exact h2

/-- Settles O41: each byte of the block is read back, and no byte outside it is reached. -/
theorem blockStoreWritesV0ToVx : Obligations.BlockStoreWritesV0ToVx := by
  intro x s
  refine ⟨_, exec_storeRegs s x, fun r hr => ?stored, fun a ha => ?other, ?index, ?frame⟩
  case stored => rw [State.memRead_setI, s.memRead_storeBlock hr]
  case other =>
    rw [State.memRead_setI]
    refine s.memRead_memWriteBytes_other s.i a _ fun j hj => ?_
    have hj' : j < x.val + 1 := by rwa [s.readBlock_length] at hj
    exact ha ⟨j, by omega⟩ (Nat.le_of_lt_succ hj')
  case index => rw [State.setI_i, toNat_add_blockLength]
  case frame =>
    rw [s.memWriteBytes_frame s.i (s.readBlock x)]
    rfl

/-- Settles O42: the registers up to x are the bytes of the block, the registers above x are kept. -/
theorem blockLoadReadsV0ToVx : Obligations.BlockLoadReadsV0ToVx := by
  intro x s
  refine ⟨_, exec_loadRegs s x, fun r hr => ?loaded, fun r hr => ?kept, ?index, fun a => ?ram, ?frame⟩
  case loaded => rw [State.readV_setI, s.readV_loadBlock, if_pos hr]
  case kept => rw [State.readV_setI, s.readV_loadBlock, if_neg (not_le.2 hr)]
  case index => rw [State.setI_i, toNat_add_blockLength]
  case ram => rw [State.memRead_setI, State.memRead_congr (s.loadBlock_mem x s.i)]
  case frame =>
    rw [s.loadBlock_frame]
    rfl

/-- Settles O43: the load reads the bytes the store left, whatever the registers hold. -/
theorem blockStoreThenLoadRestores : Obligations.BlockStoreThenLoadRestores := by
  intro x s t w h
  cases h
  refine ⟨_, exec_loadRegs _ x, fun r hr => ?registers, ?index⟩
  case registers =>
    rw [State.readV_setI, State.readV_loadBlock, if_pos hr]
    exact s.memRead_storeBlock hr s.i
  case index => rw [State.setI_i, State.setI_i]

/-- Settles O55: Load stores the image's bytes, and all of them stay at or above 0x200. -/
theorem loadCopiesTheImageAt200 : Obligations.LoadCopiesTheImageAt200 := by
  intro s image hlen
  refine ⟨_, s.hostEvent_load_of_le hlen, if_neg (Nat.not_lt.2 hlen), fun j h => ?image, fun a ha => ?other,
    s.memWriteBytes_frame _ image⟩
  case image =>
    rw [BitVec.ofNat_add]
    exact s.memRead_memWriteBytes_same Config.progBase image (by omega) j h
  case other =>
    refine s.memRead_memWriteBytes_other Config.progBase a image fun j hj => ?_
    rw [ramIndex_progBase_add (hj.trans_le hlen)]
    simp only [ramIndex, Config.memSize]
    omega

end Sys2Proof.Proofs
end

section
/-! PROOFS. Jumps, calls, returns and skips (40_control_flow sections 2 to 4 and 6): O17 to O22. -/

namespace Sys2Proof.Machine

/-- The sum of a 12-bit address and a byte does not wrap. -/
theorem toNat_zextAddr_add_zextByte (nnn : BitVec 12) (b : Byte) :
    (zextAddr nnn + zextByte b).toNat = nnn.toNat + b.toNat := by
  have hn := nnn.isLt
  have hb := b.isLt
  rw [BitVec.toNat_add, zextAddr_toNat, zextByte_toNat]
  omega

theorem sp_toNat_add_one {p : BitVec 4} (h : p ≠ 15) : (p + 1).toNat = p.toNat + 1 := by
  revert p
  decide

theorem sp_toNat_sub_one {p : BitVec 4} (h : p ≠ 0) : (p - 1).toNat = p.toNat - 1 := by
  revert p
  decide

theorem sp_add_one_ne_zero {p : BitVec 4} (h : p ≠ 15) : p + 1 ≠ 0 := by
  revert p
  decide

/-! Each skip by its condition. -/

section
variable (s : State)

theorem State.skipIf_beq (a b : Byte) : s.skipIf (a == b) = { s with pc := if a = b then s.pc + 2 else s.pc } := by
  simp only [s.skipIf_eq, beq_iff_eq]

theorem State.skipIf_bne (a b : Byte) : s.skipIf (a != b) = { s with pc := if a = b then s.pc else s.pc + 2 } := by
  simp only [s.skipIf_eq, bne_iff_ne, ite_not]

theorem State.skipIf_not (c : Bool) : s.skipIf (!c) = { s with pc := if c = true then s.pc else s.pc + 2 } := by
  cases c <;> rfl

end

/-- The key a byte names is the one of its low nibble. -/
theorem lowNibble_eq {a : Byte} {k : KeyIdx} (h : k.val = a.toNat % 16) : lowNibble a = k :=
  Fin.ext ((lowNibble_val a).trans h.symm)

end Sys2Proof.Machine

namespace Sys2Proof.Proofs

open Sys2Proof.Machine

/-- Settles O17: neither target wraps modulo 2^16. -/
theorem jumpsSetThePcAndNothingElse : Obligations.JumpsSetThePcAndNothingElse :=
  ⟨fun nnn s => ⟨_, exec_jp s nnn, zextAddr_toNat nnn, rfl⟩,
    fun nnn s => ⟨_, exec_jpV0 s nnn, toNat_zextAddr_add_zextByte nnn (s.readV 0), rfl⟩⟩

/-- Settles O18: the push writes the slot SP names and raises SP, which does not wrap below 15. -/
theorem callPushesTheReturnAddress : Obligations.CallPushesTheReturnAddress := by
  intro nnn s h
  exact ⟨_, exec_call_of_ne s nnn h, (s.readStack_push s.pc s.sp).trans (if_pos rfl),
    fun k hk => (s.readStack_push s.pc k).trans (if_neg hk), sp_toNat_add_one h, zextAddr_toNat nnn, rfl⟩

/-- Settles O19: SP does not wrap above 0. -/
theorem retPopsTheReturnAddress : Obligations.RetPopsTheReturnAddress :=
  fun s h => ⟨_, exec_ret_of_ne s h, sp_toNat_sub_one h, rfl, rfl⟩

/-- Settles O20: the CALL leaves SP above 0, so the RET finds the slot pushed. -/
theorem callThenRetRoundTrip : Obligations.CallThenRetRoundTrip := by
  intro nnn s p h
  have hsp : s.sp + 1 - 1 = s.sp := BitVec.add_sub_cancel s.sp 1
  have hpushed : (s.push s.pc).readStack (s.sp + 1 - 1) = s.pc := by rw [hsp, s.readStack_push, if_pos rfl]
  exact ⟨_, _, exec_call_of_ne s nnn h, exec_ret_of_ne _ (sp_add_one_ne_zero h), hpushed, hsp,
    fun k hk => (s.readStack_push s.pc k).trans (if_neg hk),
    congrArg₂ (fun pc sp => { s with stack := (s.push s.pc).stack, pc := pc, sp := sp }) hpushed hsp⟩

/-- Settles O21: the two edges of the stack. -/
theorem stackEdgesHaveNoSuccessor : Obligations.StackEdgesHaveNoSuccessor :=
  ⟨exec_ret_of_eq, fun nnn s => exec_call_of_eq s nnn⟩

/-- Settles O22: each instruction is a skip under its condition. -/
theorem skipsAdvanceByTwoMore : Obligations.SkipsAdvanceByTwoMore := by
  refine ⟨fun x kk s => ?seImm, fun x kk s => ?sneImm, fun x y s => ?seReg, fun x y s => ?sneReg,
    fun x s k hk => ?skp, fun x s k hk => ?sknp⟩
  case seImm => rw [exec_seImm, s.skipIf_beq]
  case sneImm => rw [exec_sneImm, s.skipIf_bne]
  case seReg => rw [exec_seReg, s.skipIf_beq]
  case sneReg => rw [exec_sneReg, s.skipIf_bne]
  case skp => rw [exec_skp, lowNibble_eq hk, s.skipIf_eq]
  case sknp => rw [exec_sknp, lowNibble_eq hk, s.skipIf_not]

end Sys2Proof.Proofs
end

section
/-! PROOFS. The instructions that write one register, and those that set `I` (41_arithmetic_logic sections 2, 3 and 5,
43_timer_memory section 3): O24, O25, O29, O39. -/

namespace Sys2Proof.Machine

/-- The address of a glyph is five times its digit, for no product wraps. -/
theorem glyphAddr_toNat (d : Fin 16) : (glyphAddr d).toNat = 5 * d.val := by
  revert d
  decide

theorem toNat_add_zextByte (a : Word) (b : Byte) : (a + zextByte b).toNat = (a.toNat + b.toNat) % 65536 := by
  rw [BitVec.toNat_add, zextByte_toNat]

/-- A byte under a mask has no bit the mask lacks. -/
theorem and_mask_and_not (a m : Byte) : a &&& m &&& ~~~m = 0 := by
  rw [BitVec.and_assoc, BitVec.and_not_self]
  exact BitVec.and_zero

end Sys2Proof.Machine

namespace Sys2Proof.Proofs

open Sys2Proof.Machine

/-- Settles O24: each writes one register, the sum taken modulo 256. -/
theorem loadAddAndCopyWriteOneRegister : Obligations.LoadAddAndCopyWriteOneRegister := by
  refine ⟨fun x kk s => ⟨_, exec_ldImm s x kk, s.readV_writeV_same x _, onlyReg_writeV s x _⟩,
    fun x kk s => ⟨_, exec_addImm s x kk, ?sum, onlyReg_writeV s x _⟩,
    fun x y s => ⟨_, exec_ldReg s x y, s.readV_writeV_same x _, onlyReg_writeV s x _⟩⟩
  case sum => rw [s.readV_writeV_same, BitVec.toNat_add]

/-- Settles O25: each writes one register, bit by bit. -/
theorem bitwiseOperationsLeaveTheFlag : Obligations.BitwiseOperationsLeaveTheFlag := by
  refine ⟨fun x y s => ⟨_, exec_orReg s x y, fun j _ => ?or, onlyReg_writeV s x _⟩,
    fun x y s => ⟨_, exec_andReg s x y, fun j _ => ?and, onlyReg_writeV s x _⟩,
    fun x y s => ⟨_, exec_xorReg s x y, fun j _ => ?xor, onlyReg_writeV s x _⟩⟩
  case or => rw [s.readV_writeV_same, BitVec.getLsbD_or]
  case and => rw [s.readV_writeV_same, BitVec.getLsbD_and]
  case xor => rw [s.readV_writeV_same, BitVec.getLsbD_xor]

/-- Settles O29: whatever byte is drawn, the mask is applied to it. -/
theorem randomByteIsUnderTheMask : Obligations.RandomByteIsUnderTheMask := by
  intro x kk s
  have value := s.countDraw.readV_writeV_same x (s.drawnByte &&& kk)
  refine ⟨_, exec_rnd s x kk, value, ?mask, rfl, rfl, fun r hr => s.countDraw.readV_writeV_other _ hr⟩
  case mask => rw [value, and_mask_and_not]

/-- Settles O39: the three values `I` receives. -/
theorem indexInstructionsSetI : Obligations.IndexInstructionsSetI := by
  refine ⟨fun nnn s => ⟨_, exec_ldI s nnn, zextAddr_toNat nnn, rfl⟩,
    fun x s => ⟨_, exec_addI s x, toNat_add_zextByte s.i (s.readV x), rfl⟩,
    fun x s => ⟨_, exec_ldF s x, ?glyph, rfl⟩⟩
  case glyph => rw [State.setI_i, glyphAddr_toNat, lowNibble_val]

end Sys2Proof.Proofs
end

section
/-! PROOFS. CLS and DRW pixel by pixel (42_display_input sections 2 and 3): O32, O33, O34, O35. -/

namespace Sys2Proof.Machine

open Sys2Proof.Claims

/-- The bytes DRW reads light the pixels the sprite lights. -/
theorem spriteBytesLight_memReadBytes (s : State) (x y : RegIdx) (n : BitVec 4) (px : Fin 64) (py : Fin 32) :
    spriteBytesLight (s.memReadBytes s.i n.toNat) ((s.readV x).toNat % 64) ((s.readV y).toNat % 32) px py =
      spriteLights s x y n px py := by
  have hcol : columnOffset ((s.readV x).toNat % 64) px = (px.val + 64 - (s.readV x).toNat % 64) % 64 := by
    rw [columnOffset, Nat.mod_mod]
  have hrow : rowOffset ((s.readV y).toNat % 32) py = (py.val + 32 - (s.readV y).toNat % 32) % 32 := by
    rw [rowOffset, Nat.mod_mod]
  rw [spriteBytesLight, hrow, spriteLights]
  by_cases hr : (py.val + 32 - (s.readV y).toNat % 32) % 32 < n.toNat
  · rw [List.getElem?_eq_getElem (by simpa using hr), State.memReadBytes_getElem]
    simp [rowLights, hcol, hr]
  · rw [List.getElem?_eq_none (by simpa using hr)]
    simp [hr]

/-- DRW flips the pixels its sprite lights, and hits when one of them was on. -/
theorem State.drawn_spec (s : State) (x y : RegIdx) (n : BitVec 4) :
    (∀ px py, (s.drawn x y n).1.pixel px py = (s.fb.pixel px py ^^ spriteLights s x y n px py)) ∧
    ((s.drawn x y n).2 = true ↔ ∃ px py, spriteLights s x y n px py = true ∧ s.fb.pixel px py = true) := by
  have hlen : (s.memReadBytes s.i n.toNat).length ≤ 16 := by
    have hn := n.isLt
    rw [s.memReadBytes_length]
    omega
  have h := drawRows_spec (s.memReadBytes s.i n.toNat) hlen ((s.readV x).toNat % 64) ((s.readV y).toNat % 32)
    (s.fb, false)
  simp only [spriteBytesLight_memReadBytes, Bool.false_eq_true, false_or] at h
  exact h

/-- Which pixels a sprite lights depends on its two coordinates, `I` and RAM alone. -/
theorem spriteLights_congr {s t : State} {x y : RegIdx} (hx : t.readV x = s.readV x) (hy : t.readV y = s.readV y)
    (hi : t.i = s.i) (hm : t.mem = s.mem) (n : BitVec 4) (px : Fin 64) (py : Fin 32) :
    spriteLights t x y n px py = spriteLights s x y n px py := by
  simp only [spriteLights, hx, hy, hi, State.memRead_congr hm]

theorem flagByte_eq_one_iff (g : Bool) : flagByte g = 1 ↔ g = true := by
  cases g <;> decide

theorem flagByte_eq_zero_iff (g : Bool) : flagByte g = 0 ↔ ¬ g = true := by
  cases g <;> decide

end Sys2Proof.Machine

namespace Sys2Proof.Proofs

open Sys2Proof.Machine Sys2Proof.Claims

/-- Settles O32: the framebuffer given to the core is the blank one. -/
theorem clearScreenClearsAndRaises : Obligations.ClearScreenClearsAndRaises :=
  fun s => ⟨_, exec_cls s, Framebuffer.pixel_blank, rfl, rfl⟩

/-- Settles O33: the pixels are those of the sprite drawn, and the only register written is VF. -/
theorem drawXorsTheWrappedSprite : Obligations.DrawXorsTheWrappedSprite := by
  intro x y n s
  obtain ⟨pixels, -⟩ := s.drawn_spec x y n
  exact ⟨_, exec_drw s x y n, pixels, rfl, rfl, fun r hr => (s.present _).readV_writeV_other _ hr⟩

/-- Settles O34: VF is the flag byte of the hit. -/
theorem drawFlagIsCollision : Obligations.DrawFlagIsCollision := by
  intro x y n s t h
  cases h
  obtain ⟨-, hit⟩ := s.drawn_spec x y n
  rw [State.readV_writeV_same, ← hit]
  exact ⟨flagByte_eq_one_iff _, flagByte_eq_zero_iff _⟩

/-- Settles O35: the second DRW lights the same pixels, so each pixel is flipped twice or not at all. -/
theorem drawingTwiceRestoresTheScreen : Obligations.DrawingTwiceRestoresTheScreen := by
  intro x y n s t u hx hy ht hu
  have hflag := (drawFlagIsCollision x y n t u hu).1
  obtain ⟨t', ht', drawnOnce, -, hframe, hregs⟩ := drawXorsTheWrappedSprite x y n s
  obtain ⟨u', hu', drawnTwice, -⟩ := drawXorsTheWrappedSprite x y n t
  cases ht.symm.trans ht'
  cases hu.symm.trans hu'
  have same : ∀ px py, spriteLights t x y n px py = spriteLights s x y n px py :=
    spriteLights_congr (hregs x hx) (hregs y hy) (by rw [hframe]) (by rw [hframe]) n
  refine ⟨Framebuffer.ext_pixel fun px py => ?pixel, ?collision⟩
  case pixel => rw [drawnTwice, drawnOnce, same, Bool.xor_assoc, Bool.xor_self, Bool.xor_false]
  case collision =>
    rw [hflag]
    refine exists_congr fun px => exists_congr fun py => ?_
    rw [same, drawnOnce]
    refine and_congr_right fun hl => ?_
    rw [hl, Bool.xor_true, Bool.not_eq_true']

end Sys2Proof.Proofs
end

section
/-! PROOFS. LD Vx, K with a key pressed and with none (42_display_input section 5), and programs that stay where they
are (70_reset section 6): O36, O37, O49, O50. -/

namespace Sys2Proof.Machine

open Sys2Proof.Claims

theorem keyByte_toNat (k : KeyIdx) : (keyByte k).toNat = k.val := by
  revert k
  decide

theorem State.pressedKeys_eq_nil {s : State} (h : ∀ k, s.keyDown k = false) : s.pressedKeys = [] :=
  List.eq_nil_iff_forall_not_mem.2 fun k hk => by simpa [h k] using (s.mem_pressedKeys k).1 hk

/-- With a key pressed, the key LD Vx, K stores is one of those pressed. -/
theorem exec_ldKey_of_pressed {s : State} (x : RegIdx) (h : ∃ k, s.keyDown k = true) :
    ∃ k, s.keyDown k = true ∧ exec (.ldKey x) s = .next (s.countDraw.writeV x (keyByte k)) := by
  obtain ⟨j, hj⟩ := h
  cases hp : s.pressedKeys with
  | nil => exact absurd ((s.mem_pressedKeys j).2 hj) (by simp [hp])
  | cons k ks =>
    have hmem : s.chosenKey k ks ∈ s.pressedKeys := hp ▸ pickKey_mem k ks (Config.keyPick s.freeDraws)
    exact ⟨_, (s.mem_pressedKeys _).1 hmem, exec_ldKey_of_cons s x hp⟩

theorem core_run_of_fixed (n : Nat) {s : State} (h : step s = .next s) : core.run n s = .next s := by
  induction n with
  | zero => rfl
  | succ n ih => rw [core_run_of_next n h, ih]

/-! The end of a program (70_reset section 6). -/

theorem finished_iff (s : State) :
    finished s = true ↔ ∃ nnn, decodeWord s.fetchWord = .jp nnn ∧ zextAddr nnn = s.pc := by
  unfold finished
  split
  case h_1 nnn h => simp [h]
  case h_2 h => simpa using fun nnn hn => absurd hn (h nnn)

/-- A program that has finished when the host's turn is over is where that turn left it. -/
theorem step_of_finished {s : State} (h : finished s.hostTurn = true) : step s = .next s.hostTurn := by
  obtain ⟨nnn, hword, hpc⟩ := (finished_iff _).1 h
  rw [step_eq, hword, exec_jp, hpc]
  rfl

/-- The states differ at most in what the host's events but Load and Reset write and in what its turns use up. -/
def SameProgram (s t : State) : Prop :=
  t = { s with dt := t.dt, st := t.st, redraw := t.redraw, keys := t.keys, schedule := t.schedule,
               freeDraws := t.freeDraws }

theorem SameProgram.trans {s t u : State} (hst : SameProgram s t) (htu : SameProgram t u) : SameProgram s u := by
  unfold SameProgram at *
  rw [htu, hst]

theorem SameProgram.finished {s t : State} (h : SameProgram s t) : finished t = finished s := by
  rw [h]
  rfl

theorem sameProgram_hostEvent (s : State) {e : HostEvent} (h : keepsProgram e = true) :
    SameProgram s (s.hostEvent e) := by
  cases e
  case load | reset => exact Bool.noConfusion h
  all_goals rfl

theorem sameProgram_hostEvents (s : State) {es : List HostEvent} (h : ∀ e ∈ es, keepsProgram e = true) :
    SameProgram s (s.hostEvents es) := by
  induction es generalizing s with
  | nil => rfl
  | cons e es ih =>
    obtain ⟨he, hes⟩ := List.forall_mem_cons.1 h
    exact (sameProgram_hostEvent s he).trans (ih (s.hostEvent e) hes)

/-- The host's turn: some events, once the turn scheduled has been used up or, for a free turn, a free value drawn. -/
theorem State.hostTurn_eq_hostEvents (s : State) :
    ∃ (u : State) (turn : List HostEvent), s.hostTurn = u.hostEvents turn ∧ SameProgram s u ∧
      u.schedule = s.schedule.tail ∧ s.freeDraws ≤ u.freeDraws ∧
      (s.hostTail ≠ .free → u.freeDraws = s.freeDraws) ∧
      (HostKeepsProgram s → ∀ e ∈ turn, keepsProgram e = true) := by
  cases hs : s.schedule with
  | cons turn rest =>
    exact ⟨_, turn, s.hostTurn_of_cons hs, rfl, rfl, le_rfl, fun _ => rfl,
      fun ⟨hscheduled, _⟩ => hscheduled turn (by simp [hs])⟩
  | nil =>
    cases ht : s.hostTail with
    | repeats turn =>
      refine ⟨s, turn, s.hostTurn_of_repeats hs ht, rfl, hs, le_rfl, fun _ => rfl, fun ⟨_, hlater⟩ => ?_⟩
      rwa [ht] at hlater
    | free =>
      refine ⟨s.countDraw, _, s.hostTurn_of_free hs ht, rfl, hs, Nat.le_succ _, fun h => absurd rfl h,
        fun ⟨_, hlater⟩ => ?_⟩
      rw [ht] at hlater
      exact hlater s.freeDraws le_rfl

/-- A host that keeps the program goes on keeping it in the turns it has left. -/
theorem hostKeepsProgram_of_later {s t : State} (h : HostKeepsProgram s) (hsch : t.schedule = s.schedule.tail)
    (htail : t.hostTail = s.hostTail) (hfree : s.freeDraws ≤ t.freeDraws) : HostKeepsProgram t := by
  obtain ⟨hscheduled, hlater⟩ := h
  refine ⟨fun turn hturn => hscheduled turn (List.mem_of_mem_tail (hsch ▸ hturn)), ?_⟩
  rw [htail]
  cases hs : s.hostTail with
  | repeats turn => rwa [hs] at hlater
  | free =>
    rw [hs] at hlater
    exact fun k hk => hlater k (hfree.trans hk)

/-- The host's turn, when it keeps the program, uses up what was scheduled first and leaves a host that keeps it. -/
theorem sameProgram_hostTurn {s : State} (h : HostKeepsProgram s) :
    SameProgram s s.hostTurn ∧ s.hostTurn.schedule = s.schedule.tail ∧ s.hostTurn.hostTail = s.hostTail ∧
      (s.hostTail ≠ .free → s.hostTurn.freeDraws = s.freeDraws) ∧ HostKeepsProgram s.hostTurn := by
  obtain ⟨u, turn, hturn, hu, husch, hule, hufree, hkeep⟩ := s.hostTurn_eq_hostEvents
  obtain ⟨hsch, htail, hfree⟩ := u.hostEvents_own turn
  have hutail : u.hostTail = s.hostTail := by rw [hu]
  rw [hturn]
  exact ⟨hu.trans (sameProgram_hostEvents u (hkeep h)), hsch.trans husch, htail.trans hutail,
    fun hn => hfree.trans (hufree hn),
    hostKeepsProgram_of_later h (hsch.trans husch) (htail.trans hutail) (hfree ▸ hule)⟩

/-- A finished program goes from one host's turn to the next. -/
theorem core_run_of_finished (n : Nat) {s : State} (hf : finished s = true) (hk : HostKeepsProgram s) :
    ∃ t, core.run n s = .next t ∧ SameProgram s t ∧ t.schedule = s.schedule.drop n ∧
      (s.hostTail ≠ .free → t.freeDraws = s.freeDraws) := by
  induction n generalizing s with
  | zero => exact ⟨s, rfl, rfl, rfl, fun _ => rfl⟩
  | succ n ih =>
    obtain ⟨hsame, hsch, htail, hfree, hk'⟩ := sameProgram_hostTurn hk
    have hf' : finished s.hostTurn = true := hsame.finished.trans hf
    obtain ⟨t, hrun, hsame', hsch', hfree'⟩ := ih hf' hk'
    refine ⟨t, ?run, hsame.trans hsame', ?schedule, fun hn => (hfree' (htail ▸ hn)).trans (hfree hn)⟩
    case run => rw [core_run_of_next n (step_of_finished hf'), hrun]
    case schedule => rw [hsch', hsch, List.drop_tail]

end Sys2Proof.Machine

namespace Sys2Proof.Proofs

open Sys2Proof.Machine

/-- Settles O36: the number of the key picked is what V[x] receives. -/
theorem keyWaitStoresAPressedKey : Obligations.KeyWaitStoresAPressedKey := by
  intro x s h
  obtain ⟨k, hk, hexec⟩ := exec_ldKey_of_pressed x h
  refine ⟨_, k, hexec, hk, ?number, rfl, rfl, fun r hr => s.countDraw.readV_writeV_other _ hr⟩
  case number => rw [State.readV_writeV_same, keyByte_toNat]

/-- Settles O37: the instruction takes back the advance of the Step, so the step answers the state it started from. -/
theorem keyWaitRepeatsWhileNoKeyIsDown : Obligations.KeyWaitRepeatsWhileNoKeyIsDown := by
  have wait : ∀ x s, (∀ k, s.keyDown k = false) → exec (.ldKey x) s = .next (s.setPc (s.pc - 2)) :=
    fun x s h => exec_ldKey_of_nil s x (State.pressedKeys_eq_nil h)
  refine ⟨wait, fun n x s hq hword h => core_run_of_fixed n ?_⟩
  rw [step_of_quiet s hq, hword, wait x s.advance h, State.advance_pc, BitVec.add_sub_cancel]
  rfl

/-- Settles O49: the host's turn does nothing, and the jump leads back to the same address. -/
theorem finishedProgramsStay : Obligations.FinishedProgramsStay := by
  intro n s hf hq
  obtain ⟨hsch, htail⟩ := (hostQuiet_iff s).1 hq
  have hturn := s.hostTurn_of_silent hsch htail
  have hstep := step_of_finished (s := s) (hturn.symm ▸ hf)
  rw [hturn] at hstep
  exact core_run_of_fixed n hstep

/-- Settles O50, by induction on the number of steps: each step is the host's turn alone. -/
theorem finishedProgramsStayUnderHostEvents : Obligations.FinishedProgramsStayUnderHostEvents := by
  intro n s hf hk
  obtain ⟨t, hrun, hsame, hsch, hfree⟩ := core_run_of_finished n hf hk
  exact ⟨t, hrun, hsame.finished.trans hf, hsch, hfree, hsame⟩

end Sys2Proof.Proofs
end

section
/-! PROOFS. Reset, the Step with the host's turn before it, and the events Tick, RedrawClear and ReadTimers
(40_control_flow section 1, 60_exceptions sections 2 to 4, 70_reset section 1): O1, O12, O51, O54, O57. -/

namespace Sys2Proof.Machine

/-- The font stands at the start of RAM; everything behind it is 0. -/
theorem background_eq (a : Nat) : Memory.background a = if a < 80 then Config.font.getD a 0 else 0 := by
  have hlen : Config.font.length = 80 := by decide
  split
  · rfl
  · next h => exact List.getD_eq_default _ _ (by omega)

/-- Two bytes decode to the instruction of their word, and nothing is left. -/
theorem eq_decodeWord_of_decode {hi lo : Byte} {i : Instr} (h : decode [hi, lo] = .ok (i, [])) :
    i = decodeWord (wordOfBytes hi lo) := by
  have hpair : Except.ok (ε := DecodeError) (decodeWord (wordOfBytes hi lo), ([] : List Byte)) = .ok (i, []) := h
  cases hpair
  rfl

theorem cycle_of_decode {s : State} {i : Instr} (h : decode [s.memRead s.pc, s.memRead (s.pc + 1)] = .ok (i, [])) :
    cycle s = exec i s.advance := by
  rw [eq_decodeWord_of_decode h]
  rfl

/-- Ticks one after the other. -/
theorem State.hostEvents_ticks (n : Nat) (s : State) :
    let t := s.hostEvents (List.replicate n .tick)
    t.dt.toNat = s.dt.toNat - n ∧ t.st.toNat = s.st.toNat - n ∧ t = { s with dt := t.dt, st := t.st } := by
  induction n generalizing s with
  | zero => exact ⟨rfl, rfl, rfl⟩
  | succ n ih =>
    obtain ⟨hdt, hst, hframe⟩ := ih s.tick
    rw [State.tick_dt, countDown_toNat, Nat.sub_sub, Nat.add_comm] at hdt
    rw [State.tick_st, countDown_toNat, Nat.sub_sub, Nat.add_comm] at hst
    exact ⟨hdt, hst, hframe⟩

end Sys2Proof.Machine

namespace Sys2Proof.Proofs

open Sys2Proof.Machine

/-- Settles O1: RAM lists nothing, so it reads as the font and zeros. -/
theorem resetLeavesEveryFieldAtItsValue : Obligations.ResetLeavesEveryFieldAtItsValue := by
  refine ⟨reset_readV, rfl, rfl, rfl, fun k => ?stack, rfl, rfl, Framebuffer.pixel_blank,
    fun a => background_eq (ramIndex a), rfl, fun k => ?keys⟩
  case stack => simp [State.readStack, State.reset]
  case keys => simp [State.keyDown, State.reset, Config.resetKeys]

/-- Settles O12: the host's turn by what the schedule and the host hold, then the Step. -/
theorem stepRunsTheDecodedInstruction : Obligations.StepRunsTheDecodedInstruction := by
  refine ⟨fun s i hq h => ?silent, fun s turn rest hs => ?scheduled, fun s turn hs ht => ?recurring,
    fun s hs ht => ?free, fun s i h => cycle_of_decode h⟩
  case silent =>
    obtain ⟨hs, ht⟩ := (hostQuiet_iff s).1 hq
    rw [step, s.hostTurn_of_silent hs ht]
    exact cycle_of_decode h
  case scheduled => rw [step, s.hostTurn_of_cons hs, State.hostEvents_eq_foldl]
  case recurring => rw [step_recurring hs ht, State.hostEvents_eq_foldl]
  case free =>
    rw [step, s.hostTurn_of_free hs ht, State.hostEvents_eq_foldl]
    rfl

/-- Settles O51, by induction on the number of Ticks. -/
theorem ticksCountBothTimersDown : Obligations.TicksCountBothTimersDown :=
  fun n s => ⟨_, rfl, s.hostEvents_ticks n⟩

/-- Settles O54: the two events as the model has them. -/
theorem redrawClearAndReadTimers : Obligations.RedrawClearAndReadTimers :=
  ⟨fun _ => rfl, fun _ => ⟨rfl, rfl⟩⟩

/-- Settles O57: Reset as the model has it. -/
theorem hostResetRestoresTheResetState : Obligations.HostResetRestoresTheResetState :=
  fun _ => rfl

end Sys2Proof.Proofs
end
